-- ==== Sys2Proof/Word.lean ====
section
/-! DEFINITION. The one word type of the machine: every register, memory cell, buffer value and instruction byte is a
u8 (R6: data width 8 bits, unsigned, held modulo 256; R8: u8). -/

namespace Sys2Proof

/-- A u8: an integer in [0, 255] with its bits numbered 7 (most significant) down to 0 (R7, R8). -/
abbrev Byte := BitVec 8

end Sys2Proof
end

