-- ==== Sys2Proof/Syntax.lean ====
section
/-! DEFINITION. The instruction set as syntax: one constructor of `Instr` for each of the 42 rows of
spec/opcode_table.json, in the table's order, and the operand forms of R54, R55 and R69. An instruction is what the
decoder of R57 reads from the ONE opcode byte; the second word is no part of it, because it is fetched while the
instruction executes (R51, R52, R57: the decoder "reads only IR"). -/

namespace Sys2Proof

/-- Operand A (R54): the register `x[A]`, A = IR[3]. -/
inductive Reg where
  /-- A = 0: ACC, `x[0]` (R15). -/
  | acc
  /-- A = 1: IX, `x[1]` (R16). -/
  | ix
  deriving DecidableEq, Repr

/-- The four memory modes, selectors 4 to 7 (R34, R69). -/
inductive MemMode where
  /-- Selector 4, absolute-program. -/
  | progAbs
  /-- Selector 5, absolute-data. -/
  | dataAbs
  /-- Selector 6, indexed-program. -/
  | progIdx
  /-- Selector 7, indexed-data. -/
  | dataIdx
  deriving DecidableEq, Repr

/-- Raw operand B, IR[2:0], one form per row of R69's table. The raw values 2 and 3 are kept apart here, though both mean
immediate addressing, because an IllegalOperand halt of ST records the instruction byte as it was fetched (R70, R107). -/
inductive OperandB where
  /-- Raw 0: register ACC. -/
  | acc
  /-- Raw 1: register IX. -/
  | ix
  /-- Raw 2: immediate. -/
  | imm
  /-- Raw 3: immediate, folded into selector 2 (R55). -/
  | immFolded
  /-- Raw 4 to 7: a memory mode. -/
  | mem (m : MemMode)
  deriving DecidableEq, Repr

/-- The selector B of R55 after folding: B in {0, 1, 2, 4, 5, 6, 7}. -/
inductive Selector where
  /-- Selector 0: ACC. -/
  | acc
  /-- Selector 1: IX. -/
  | ix
  /-- Selector 2: immediate. -/
  | imm
  /-- Selectors 4 to 7: memory. -/
  | mem (m : MemMode)
  deriving DecidableEq, Repr

/-- The instructions (R57, R58). `a` is operand A and `b` is raw operand B. -/
inductive Instr where
  /-- NOP (R97). -/
  | nop
  /-- JAL (R95). -/
  | jal
  /-- JR (R96). -/
  | jr
  /-- HLT (R98). -/
  | hlt
  /-- OUT (R101). -/
  | out
  /-- IN (R102); `in` is a word of Lean. -/
  | inp
  /-- RCF (R99). -/
  | rcf
  /-- SCF (R100). -/
  | scf
  /-- BBC 0, always (R93, R94). -/
  | bbc0
  /-- BBC 1, !ZF. -/
  | bbc1
  /-- BBC 2, !NF. -/
  | bbc2
  /-- BBC 3, !(NF | ZF). -/
  | bbc3
  /-- BBC 4, !ibuf.ready. -/
  | bbc4
  /-- BBC 5, !CF. -/
  | bbc5
  /-- BBC 6, !(VF ^ NF). -/
  | bbc6
  /-- BBC 7, !((VF ^ NF) | ZF). -/
  | bbc7
  /-- BBC 8, VF. -/
  | bbc8
  /-- BBC 9, ZF. -/
  | bbc9
  /-- BBC 10, NF. -/
  | bbc10
  /-- BBC 11, NF | ZF. -/
  | bbc11
  /-- BBC 12, obuf.ready. -/
  | bbc12
  /-- BBC 13, CF. -/
  | bbc13
  /-- BBC 14, VF ^ NF. -/
  | bbc14
  /-- BBC 15, (VF ^ NF) | ZF. -/
  | bbc15
  /-- SRA (R84). -/
  | sra (a : Reg)
  /-- SLA (R85). -/
  | sla (a : Reg)
  /-- SRL (R86). -/
  | srl (a : Reg)
  /-- SLL (R87). -/
  | sll (a : Reg)
  /-- RRA (R88). -/
  | rra (a : Reg)
  /-- RLA (R89). -/
  | rla (a : Reg)
  /-- RRL (R90). -/
  | rrl (a : Reg)
  /-- RLL (R91). -/
  | rll (a : Reg)
  /-- LD (R71). -/
  | ld (a : Reg) (b : OperandB)
  /-- ST (R72). -/
  | st (a : Reg) (b : OperandB)
  /-- SBC (R77). -/
  | sbc (a : Reg) (b : OperandB)
  /-- ADC (R75). -/
  | adc (a : Reg) (b : OperandB)
  /-- SUB (R76). -/
  | sub (a : Reg) (b : OperandB)
  /-- ADD (R74). -/
  | add (a : Reg) (b : OperandB)
  /-- EOR (R81). -/
  | eor (a : Reg) (b : OperandB)
  /-- OR (R80). -/
  | or (a : Reg) (b : OperandB)
  /-- AND (R79). -/
  | and (a : Reg) (b : OperandB)
  /-- CMP (R78). -/
  | cmp (a : Reg) (b : OperandB)
  deriving DecidableEq, Repr

end Sys2Proof
end

