-- ==== Sys2Proof/WellFormed.lean ====
section
/-! DEFINITION. Well-formed instructions: the terms that the spec's own syntax admits (R64). Every term of `Instr` has an
encoding; the one check is ST's, whose register and immediate destinations decode but are illegal operands (R64, R70). -/

namespace Sys2Proof

/-- The forms a store may name as its destination: the four memory modes (R64: "For ST, ... only the four memory forms
are legal"; R70). -/
def OperandB.isStoreDest : OperandB → Bool
  | .acc => false
  | .ix => false
  | .imm => false
  | .immFolded => false
  | .mem _ => true

/-- A well-formed instruction (R64). An ill-formed one still decodes and still runs: it raises IllegalOperand (R70). -/
def Instr.wellFormed : Instr → Bool
  | .st _ b => b.isStoreDest
  | .nop | .jal | .jr | .hlt | .out | .inp | .rcf | .scf => true
  | .bbc0 | .bbc1 | .bbc2 | .bbc3 | .bbc4 | .bbc5 | .bbc6 | .bbc7 => true
  | .bbc8 | .bbc9 | .bbc10 | .bbc11 | .bbc12 | .bbc13 | .bbc14 | .bbc15 => true
  | .sra _ | .sla _ | .srl _ | .sll _ | .rra _ | .rla _ | .rrl _ | .rll _ => true
  | .ld _ _ | .sbc _ _ | .adc _ _ | .sub _ _ | .add _ _ | .eor _ _ | .or _ _ | .and _ _ | .cmp _ _ => true

end Sys2Proof
end

