-- ==== Sys2Proof/Decode.lean ====
section
/-! DEFINITION. The decoder of R57, total on every byte and rejecting by name; the lengths of R61; the reader of the
1-2 byte wire format of R52; then the encoder, from the formats of R56 and the canonical bytes of R65. -/

namespace Sys2Proof

/-- Why bytes are no instruction. -/
inductive DecodeError where
  /-- The opcode byte spells no instruction (R59). Raised by `decodeOpcode`; the step halts with it (R108). -/
  | unknownInstruction (ir : Byte)
  /-- No opcode byte: `decodeBytes` was given an empty list. The machine never meets it: `fetchByte` checks the address. -/
  | noOpcodeByte
  /-- The list ends before the second word. The machine never meets it, for the same reason. -/
  | noSecondWord
  deriving DecidableEq, Repr

/-! ## Fields (R53-R55) -/

/-- Operand A from IR[3] (R54). -/
def Reg.ofBit : Bool → Reg
  | false => .acc
  | true => .ix

/-- Raw operand B from IR[2], IR[1], IR[0] (R55, R69). -/
def OperandB.ofBits : Bool → Bool → Bool → OperandB
  | false, false, false => .acc
  | false, false, true => .ix
  | false, true, false => .imm
  | false, true, true => .immFolded
  | true, false, false => .mem .progAbs
  | true, false, true => .mem .dataAbs
  | true, true, false => .mem .progIdx
  | true, true, true => .mem .dataIdx

/-- The folding of R55: raw 3 becomes selector 2. -/
def OperandB.fold : OperandB → Selector
  | .acc => .acc
  | .ix => .ix
  | .imm => .imm
  | .immFolded => .imm
  | .mem m => .mem m

/-- Whether a selector takes a second word: selectors 2, 4, 5, 6 and 7 do (R68). -/
def Selector.hasSecondWord : Selector → Bool
  | .acc => false
  | .ix => false
  | .imm => true
  | .mem _ => true

/-! ## The decoder (R57) -/

/-- Class 0x3: BBC with condition IR[3:0] (R57, R94). -/
def decodeBranch : Bool → Bool → Bool → Bool → Instr
  | false, false, false, false => .bbc0
  | false, false, false, true => .bbc1
  | false, false, true, false => .bbc2
  | false, false, true, true => .bbc3
  | false, true, false, false => .bbc4
  | false, true, false, true => .bbc5
  | false, true, true, false => .bbc6
  | false, true, true, true => .bbc7
  | true, false, false, false => .bbc8
  | true, false, false, true => .bbc9
  | true, false, true, false => .bbc10
  | true, false, true, true => .bbc11
  | true, true, false, false => .bbc12
  | true, true, false, true => .bbc13
  | true, true, true, false => .bbc14
  | true, true, true, true => .bbc15

/-- Class 0x4: the shift/rotate mode IR[2:0], numbered as in R83 (decision D12). -/
def decodeShift (a : Reg) : Bool → Bool → Bool → Instr
  | false, false, false => .sra a
  | false, false, true => .sla a
  | false, true, false => .srl a
  | false, true, true => .sll a
  | true, false, false => .rra a
  | true, false, true => .rla a
  | true, true, false => .rrl a
  | true, true, true => .rll a

/-- Class 0x0 (R57): NOP, JAL, JR, HLT, and the illegal bytes 0x08 and 0x09. The HLT test is read as
`((IR & 0xFC) | 0x03) = 0x0F` (decision D28). -/
def decodeClass0 (ir : Byte) : Except DecodeError Instr :=
  if ir &&& 0xF8#8 = 0x00#8 then .ok .nop
  else if ir = 0x0A#8 then .ok .jal
  else if ir = 0x0B#8 then .ok .jr
  else if (ir &&& 0xFC#8) ||| 0x03#8 = 0x0F#8 then .ok .hlt
  else .error (.unknownInstruction ir)

/-- The decoder of R57, in full. It reads only the opcode byte; the four Booleans it matches on are IR[7:4]. -/
def decodeOpcode (ir : Byte) : Except DecodeError Instr :=
  let a := Reg.ofBit (ir.getLsbD 3)
  let b := OperandB.ofBits (ir.getLsbD 2) (ir.getLsbD 1) (ir.getLsbD 0)
  match ir.getLsbD 7, ir.getLsbD 6, ir.getLsbD 5, ir.getLsbD 4 with
  | false, false, false, false => decodeClass0 ir
  | false, false, false, true => .ok (if ir &&& 0xF8#8 = 0x10#8 then .out else .inp)
  | false, false, true, false => .ok (if ir &&& 0xF8#8 = 0x20#8 then .rcf else .scf)
  | false, false, true, true => .ok (decodeBranch (ir.getLsbD 3) (ir.getLsbD 2) (ir.getLsbD 1) (ir.getLsbD 0))
  | false, true, false, false => .ok (decodeShift a (ir.getLsbD 2) (ir.getLsbD 1) (ir.getLsbD 0))
  | false, true, false, true => .error (.unknownInstruction ir)
  | false, true, true, false => .ok (.ld a b)
  | false, true, true, true => .ok (.st a b)
  | true, false, false, false => .ok (.sbc a b)
  | true, false, false, true => .ok (.adc a b)
  | true, false, true, false => .ok (.sub a b)
  | true, false, true, true => .ok (.add a b)
  | true, true, false, false => .ok (.eor a b)
  | true, true, false, true => .ok (.or a b)
  | true, true, true, false => .ok (.and a b)
  | true, true, true, true => .ok (.cmp a b)

/-! ## Lengths and the wire format (R52, R61) -/

/-- The bytes an instruction with raw operand B takes (R61): two when the selector has a second word. -/
def OperandB.length (b : OperandB) : Nat := if b.fold.hasSecondWord then 2 else 1

/-- The number of bytes of an instruction (R61). A ST with selector 0, 1 or 2 halts after its first byte (decision D11). -/
def Instr.length : Instr → Nat
  | .jal => 2
  | .nop | .jr | .hlt | .out | .inp | .rcf | .scf => 1
  | .bbc0 | .bbc1 | .bbc2 | .bbc3 | .bbc4 | .bbc5 | .bbc6 | .bbc7 => 2
  | .bbc8 | .bbc9 | .bbc10 | .bbc11 | .bbc12 | .bbc13 | .bbc14 | .bbc15 => 2
  | .sra _ | .sla _ | .srl _ | .sll _ | .rra _ | .rla _ | .rrl _ | .rll _ => 1
  | .st _ b => if b.isStoreDest then 2 else 1
  | .ld _ b | .sbc _ b | .adc _ b | .sub _ b | .add _ b | .eor _ b | .or _ b | .and _ b | .cmp _ b => b.length

/-- One instruction as it stands in a program image: what the decoder names, and its second word where it has one. -/
structure Encoded where
  instr : Instr
  word : Option Byte
  deriving DecidableEq, Repr

/-- Reads one instruction from the front of a list of bytes (R52, R61) and returns it with the bytes after it. -/
def decodeBytes : List Byte → Except DecodeError (Encoded × List Byte)
  | [] => .error .noOpcodeByte
  | ir :: rest =>
    match decodeOpcode ir with
    | .error e => .error e
    | .ok i =>
      if i.length = 2 then
        match rest with
        | [] => .error .noSecondWord
        | d :: rest' => .ok (⟨i, some d⟩, rest')
      else .ok (⟨i, none⟩, rest)

/-- The instruction read from an instruction whose bits are `w`, bit 0 being the least significant bit of the first byte:
the first byte is bits 7..0 and the second word is bits 15..8, with every bit from `nbits` up taken as 0. -/
def decodeTableWord (nbits w : Nat) : Option Instr :=
  let v := w % 2 ^ nbits
  match decodeBytes [BitVec.ofNat 8 v, BitVec.ofNat 8 (v / 256)] with
  | .ok (e, _) => some e.instr
  | .error _ => none

/-! ## The encoder (R56, R64, R65) -/

/-- Operand A in its place, IR[3] (R54). -/
def Reg.field : Reg → Byte
  | .acc => 0x00#8
  | .ix => 0x08#8

/-- Raw operand B in its place, IR[2:0] (R55, R69). -/
def OperandB.field : OperandB → Byte
  | .acc => 0#8
  | .ix => 1#8
  | .imm => 2#8
  | .immFolded => 3#8
  | .mem .progAbs => 4#8
  | .mem .dataAbs => 5#8
  | .mem .progIdx => 6#8
  | .mem .dataIdx => 7#8

/-- Format AB, `ccccAbbb` (R56). -/
def encodeAB (cls : Byte) (a : Reg) (b : OperandB) : Byte := cls ||| a.field ||| b.field

/-- Format SH, `0100Ammm` (R56). -/
def encodeSH (mode : Byte) (a : Reg) : Byte := 0x40#8 ||| a.field ||| mode

/-- The opcode byte of an instruction, with every ignored bit 0 (R56, R65, decision D24). -/
def opcodeByte : Instr → Byte
  | .nop => 0x00#8
  | .jal => 0x0A#8
  | .jr => 0x0B#8
  | .hlt => 0x0C#8
  | .out => 0x10#8
  | .inp => 0x18#8
  | .rcf => 0x20#8
  | .scf => 0x28#8
  | .bbc0 => 0x30#8
  | .bbc1 => 0x31#8
  | .bbc2 => 0x32#8
  | .bbc3 => 0x33#8
  | .bbc4 => 0x34#8
  | .bbc5 => 0x35#8
  | .bbc6 => 0x36#8
  | .bbc7 => 0x37#8
  | .bbc8 => 0x38#8
  | .bbc9 => 0x39#8
  | .bbc10 => 0x3A#8
  | .bbc11 => 0x3B#8
  | .bbc12 => 0x3C#8
  | .bbc13 => 0x3D#8
  | .bbc14 => 0x3E#8
  | .bbc15 => 0x3F#8
  | .sra a => encodeSH 0#8 a
  | .sla a => encodeSH 1#8 a
  | .srl a => encodeSH 2#8 a
  | .sll a => encodeSH 3#8 a
  | .rra a => encodeSH 4#8 a
  | .rla a => encodeSH 5#8 a
  | .rrl a => encodeSH 6#8 a
  | .rll a => encodeSH 7#8 a
  | .ld a b => encodeAB 0x60#8 a b
  | .st a b => encodeAB 0x70#8 a b
  | .sbc a b => encodeAB 0x80#8 a b
  | .adc a b => encodeAB 0x90#8 a b
  | .sub a b => encodeAB 0xA0#8 a b
  | .add a b => encodeAB 0xB0#8 a b
  | .eor a b => encodeAB 0xC0#8 a b
  | .or a b => encodeAB 0xD0#8 a b
  | .and a b => encodeAB 0xE0#8 a b
  | .cmp a b => encodeAB 0xF0#8 a b

/-- The words of an instruction whose second word, where it has one, is `d` (R52, R56). -/
def encode (i : Instr) (d : Byte) : List Byte :=
  opcodeByte i :: (if i.length = 2 then [d] else [])

end Sys2Proof
end

