-- ==== Sys2Proof/Config.lean ====
section
/-! DEFINITION. What one implementation of the CORE fixes and the spec leaves open: the parameter ADD_VF_RULE (R6, R74,
decision D6). The other two parameters of R6, LaunchState and HostSchedule, stand in Machine/HostPort.lean. -/

namespace Sys2Proof

/-- ADD_VF_RULE (R74, D6): how ADD computes VF. The spec leaves the choice open among exactly these three. -/
inductive AddVfRule where
  /-- CARRY_OR_OVERFLOW, the spec's default: `s[8] | V(a, b, s)`. -/
  | carryOrOverflow
  /-- OVERFLOW: `V(a, b, s)`. -/
  | overflow
  /-- CFIN_OR_OVERFLOW: `CF | V(a, b, s)`, with CF as it stands before the instruction. -/
  | cfinOrOverflow
  deriving DecidableEq, Repr

/-- The implementation's parameters. It is held in the machine's state because `exec` has no other argument that could
carry it; no instruction, step or host action changes it, and a statement holds for every value of it (log entry 1). -/
structure Config where
  /-- ADD_VF_RULE (R6). -/
  addVfRule : AddVfRule
  deriving DecidableEq, Repr

/-- The spec's default value of every parameter (R6: ADD_VF_RULE defaults to CARRY_OR_OVERFLOW). -/
def Config.default : Config := { addVfRule := .carryOrOverflow }

end Sys2Proof
end

