-- ==== Sys2Proof/Machine/State.lean ====
section
/-! DEFINITION. The machine's state as plain data: every field that R14 gives the CORE, the record of its diagnostic port
(R31, R112) and the implementation's parameters (R6). `State.reset` is the default launch state of R32. -/

namespace Sys2Proof.Machine

/-! ## Memory (R33) -/

/-- The memory array of R33, as (index, byte) pairs in one canonical form: see `Memory.wf`. -/
abbrev Memory := List Host.Cell

/-- What a cell that the list does not name reads as: 0x00, the value of every cell that neither the loader nor a store
has written (R14, R32, decision D15; log entry 2). -/
def Memory.unlisted : Byte := 0x00#8

/-- Every index that the list names lies above `a`. -/
def Memory.above (a : Nat) : Memory → Bool
  | [] => true
  | (b, _) :: rest => decide (a < b) && Memory.above a rest

/-- The canonical form: indices strictly rising and below 512 (R33), and no entry that holds what an unlisted cell reads
as. Two canonical memories with the same contents are the same list. -/
def Memory.wf : Memory → Bool
  | [] => true
  | (a, v) :: rest => decide (a < 512) && decide (v ≠ Memory.unlisted) && Memory.above a rest && Memory.wf rest

/-! ## Flags, buffers, run state (R20, R23-R25) -/

/-- The four independent 1-bit flags (R20). They have no layout inside a byte. -/
structure Flags where
  cf : Bool
  vf : Bool
  nf : Bool
  zf : Bool
  deriving DecidableEq, Repr

/-- An I/O buffer, `{value: u8, ready: bool}` (R23, R24). -/
structure IoBuffer where
  value : Byte
  ready : Bool
  deriving DecidableEq, Repr

/-- The halt reasons of R107, each with its recorded value. -/
inductive HaltReason where
  /-- Code 0: the normal stop, by the HLT instruction (R98). -/
  | hlt
  /-- Code 1: the fetched byte `ir` spells no instruction (R108). -/
  | unknownInstruction (ir : Byte)
  /-- Code 2: ST, fetched as `ir`, names no memory destination (R109). -/
  | illegalOperand (ir : Byte)
  /-- Code 3: a fetch, or an effective address, at the index `addr` >= 512 (R110). -/
  | addressOutOfRange (addr : Nat)
  deriving DecidableEq, Repr

/-- The codes of R107. -/
def HaltReason.code : HaltReason → Nat
  | .hlt => 0
  | .unknownInstruction _ => 1
  | .illegalOperand _ => 2
  | .addressOutOfRange _ => 3

/-- Whether a reason is an error; HLT is the one that is not (R98, R107). -/
def HaltReason.isError : HaltReason → Bool
  | .hlt => false
  | .unknownInstruction _ => true
  | .illegalOperand _ => true
  | .addressOutOfRange _ => true

/-- The step engine's state (R25, R105). -/
inductive RunState where
  | running
  | halted (r : HaltReason)
  deriving DecidableEq, Repr

/-- One record of the diagnostic port (R31, R112, decision D23): the reason with its recorded value, and the address of
the opcode byte of the instruction that raised it. -/
structure Diagnostic where
  reason : HaltReason
  opcodeAddr : Nat
  deriving DecidableEq, Repr

/-! ## The state -/

/-- The state of the CORE (R14). `diag` and `cfg` are the model's own fields. -/
structure State where
  /-- ACC, `x[0]` (R15). -/
  acc : Byte
  /-- IX, `x[1]` (R16). -/
  ix : Byte
  /-- The program counter, an index in [0, 512] (R18). -/
  pc : Nat
  /-- `mem[0..511]` (R33). -/
  mem : Memory
  /-- CF, VF, NF, ZF (R20). -/
  flags : Flags
  /-- The input buffer (R23). -/
  ibuf : IoBuffer
  /-- The output buffer (R24). -/
  obuf : IoBuffer
  /-- Running, or Halted with its reason (R25). -/
  run : RunState
  /-- The model's own: the records the diagnostic port has emitted, oldest first (R31, R112; log entry 3). -/
  diag : List Diagnostic
  /-- The model's own: the parameter ADD_VF_RULE of R6, which nothing changes (log entry 1). -/
  cfg : Config
  deriving DecidableEq, Repr

/-- The default launch state of R32 with nothing loaded: every register, flag and buffer field 0, `pc` = 0x000, `run` =
Running, every cell 0x00. No diagnostic has been emitted, and ADD_VF_RULE has the spec's default (R6). -/
def State.reset : State where
  acc := 0x00#8
  ix := 0x00#8
  pc := 0x000
  mem := []
  flags := ⟨false, false, false, false⟩
  ibuf := ⟨0x00#8, false⟩
  obuf := ⟨0x00#8, false⟩
  run := .running
  diag := []
  cfg := Config.default

/-! ## The ways a step can stop -/

/-- The faults of a step. There is none. Every error the spec gives this machine is a halt whose final state it
describes (R107-R111), so the step that raises it answers that state, with `run` = Halted(reason); no instruction of the
spec stops without a described effect. Having no fault is therefore neither safe nor unsafe: nothing is left out. -/
inductive Fault where
  deriving DecidableEq, Repr

/-- The refusals of a step. -/
inductive Refusal where
  /-- Raised by an arm of `exec` that has no meaning yet. Safe: nothing can be proved of what the instruction does. -/
  | notModelled (mnemonic : String)
  /-- Raised by `step` alone, on a machine whose `run` is Halted(r): "the CORE has no step" there and "the model defines no
  transition from a halted state" (R106, decision D14). Safe: the spec gives no effect to allow. -/
  | noStepFromHalted (r : HaltReason)
  deriving DecidableEq, Repr

/-- What a meaning or a step answers. -/
abbrev Result := Host.Outcome State Fault Refusal

end Sys2Proof.Machine
end

