-- ==== Sys2Proof/Machine/Ops.lean ====
section
/-! DEFINITION. The named operations over memory, registers and the run state: the memory primitives of R10, the fetch
primitive of R11, raising an error halt (R12, R111, R112), the bank controller's effective address (R35), and the
opcode fetch with its decoding (R51). Every read and write of the machine goes through one of these. -/

namespace Sys2Proof.Machine

/-! ## Registers (R9) -/

/-- `x[A]`. -/
def State.reg (s : State) : Reg → Byte
  | .acc => s.acc
  | .ix => s.ix

/-- `x[A] <- v`. -/
def State.setReg (s : State) (a : Reg) (v : Byte) : State :=
  match a with
  | .acc => { s with acc := v }
  | .ix => { s with ix := v }

/-- `pc <- n`. -/
def State.setPc (s : State) (n : Nat) : State := { s with pc := n }

/-- Writes the four flags; a caller that leaves one unchanged passes its old value. -/
def State.setFlags (s : State) (f : Flags) : State := { s with flags := f }

/-- `CF <- c`, and no other flag (R99, R100). -/
def State.setCf (s : State) (c : Bool) : State := s.setFlags { s.flags with cf := c }

/-! ## The memory array (R10, R33) -/

/-- The byte at index `a`. -/
def Memory.read : Memory → Nat → Byte
  | [], _ => Memory.unlisted
  | (b, v) :: rest, a => if b = a then v else Memory.read rest a

/-- The memory with byte `v` at index `a`, in canonical form: writing what an unlisted cell reads as removes the entry. -/
def Memory.write : Memory → Nat → Byte → Memory
  | [], a, v => if v = Memory.unlisted then [] else [(a, v)]
  | (b, w) :: rest, a, v =>
    if a < b then (if v = Memory.unlisted then (b, w) :: rest else (a, v) :: (b, w) :: rest)
    else if a = b then (if v = Memory.unlisted then rest else (a, v) :: rest)
    else (b, w) :: Memory.write rest a v

/-! ## Results that may have raised -/

/-- What an operation that can raise answers: a value and the state after it, or the halted state that `raise` left, which
ends the step at once (R12). -/
inductive Resolved (α : Type) where
  | ok (v : α) (s : State)
  | raised (s : State)

/-- Goes on with the value unless an error was raised. -/
def Resolved.bind {α β : Type} (r : Resolved α) (k : α → State → Resolved β) : Resolved β :=
  match r with
  | .ok v s => k v s
  | .raised s => .raised s

/-- Ends an instruction: goes on with the value, or answers the halted state as the next state (R12). -/
def Resolved.andThen {α : Type} (r : Resolved α) (k : α → State → Result) : Result :=
  match r with
  | .ok v s => k v s
  | .raised s => .next s

/-! ## Raising an error halt (R12, R111, R112) -/

/-- The address of the opcode byte of the instruction being executed: while it executes and before its second-word fetch,
`pc` is that address + 1 (R19). -/
def State.opcodeAddr (s : State) : Nat := s.pc - 1

/-- `raise E`: `run` becomes Halted(E) and one diagnostic record goes out (R12, R112, decision D23). Nothing else changes:
`pc` keeps the advances already made, nothing is saved, and there is no handler (R111). There is no return from it (R115). -/
def raise (opAddr : Nat) (e : HaltReason) (s : State) : State :=
  { s with run := .halted e, diag := s.diag ++ [{ reason := e, opcodeAddr := opAddr }] }

/-! ## Memory and fetch primitives (R10, R11) -/

/-- `FetchByte()` (R11): the byte at `pc`, which then advances by one. -/
def fetchByte (opAddr : Nat) (s : State) : Resolved Byte :=
  if 512 ≤ s.pc then .raised (raise opAddr (.addressOutOfRange s.pc) s)
  else .ok (s.mem.read s.pc) (s.setPc (s.pc + 1))

/-- `MemRead(addr, 1)` (R10). -/
def memRead (opAddr addr : Nat) (s : State) : Resolved Byte :=
  if 512 ≤ addr then .raised (raise opAddr (.addressOutOfRange addr) s)
  else .ok (s.mem.read addr) s

/-- `MemWrite(addr, 1, v)` (R10). -/
def memWrite (opAddr addr : Nat) (v : Byte) (s : State) : Resolved Unit :=
  if 512 ≤ addr then .raised (raise opAddr (.addressOutOfRange addr) s)
  else .ok () { s with mem := s.mem.write addr v }

/-! ## The bank controller (R34, R35) -/

/-- The base a memory mode adds: 0x000 for selectors 4 and 6, 0x100 for selectors 5 and 7 (R34, R35). -/
def bankBase : MemMode → Nat
  | .progAbs => 0x000
  | .dataAbs => 0x100
  | .progIdx => 0x000
  | .dataIdx => 0x100

/-- The offset a memory mode adds: `d`, or `IX + d` not reduced modulo 256 (R35, decision D4). -/
def bankOffset (m : MemMode) (ix d : Byte) : Nat :=
  match m with
  | .progAbs => d.toNat
  | .dataAbs => d.toNat
  | .progIdx => ix.toNat + d.toNat
  | .dataIdx => ix.toNat + d.toNat

/-- `base + off` of R35, in [0, 766], before its range check. -/
def effAddr (m : MemMode) (ix d : Byte) : Nat := bankBase m + bankOffset m ix d

/-- `EA(sel, d)` (R35), with the value IX has when the operand is resolved. -/
def ea (opAddr : Nat) (m : MemMode) (d : Byte) (s : State) : Resolved Nat :=
  let e := effAddr m s.ix d
  if 512 ≤ e then .raised (raise opAddr (.addressOutOfRange e) s) else .ok e s

/-! ## Opcode fetch and decode (R51, R57) -/

/-- The first two lines of `Step()` (R51): `IR <- FetchByte()`, then `Decode(IR)`, which raises UnknownInstruction before
any second-word fetch (R108). -/
def fetchDecode (s : State) : Resolved Instr :=
  (fetchByte s.pc s).bind fun ir s1 =>
    match decodeOpcode ir with
    | .ok i => .ok i s1
    | .error _ => .raised (raise s.pc (.unknownInstruction ir) s1)

/-- What the step port answers (R28). -/
inductive StepAnswer where
  | continues
  | halts
  deriving DecidableEq, Repr

/-- The answer of a step that left the state `s`: Halt if `run` is Halted, else Continue (R51, R105). -/
def State.answer (s : State) : StepAnswer :=
  match s.run with
  | .running => .continues
  | .halted _ => .halts

/-! ## Placing an instruction -/

/-- Stores the low 16 bits of `w` where the next instruction is fetched: bits 7..0 at `pc`, bits 15..8 at `pc + 1`, each
only where that index exists (R33), and sets `run` to Running, without which there is no step (R106). -/
def placeInstruction (s : State) (w : Nat) : State :=
  let m0 := if s.pc < 512 then s.mem.write s.pc (BitVec.ofNat 8 w) else s.mem
  let m1 := if s.pc + 1 < 512 then m0.write (s.pc + 1) (BitVec.ofNat 8 (w / 256)) else m0
  { s with mem := m1, run := .running }

end Sys2Proof.Machine
end

