-- ==== Sys2Proof/Machine/Flags.lean ====
section
/-! DEFINITION. Every flag computation of the spec: the ALU's derivations (R73), ADD's overflow under each value of
ADD_VF_RULE (R74), the logic flags (R79), the shift and rotate flags (R83) with the eight variants (R84-R91), and the
sixteen branch conditions (R94). Sums are mathematical integers, narrowed only where the rule says so (R8). -/

namespace Sys2Proof.Machine

/-! ## The ALU's derivations (R73) -/

/-- `V(a, b, s)`: `(a[7] & b[7] & !s[7]) | (!a[7] & !b[7] & s[7])` (R73). -/
def overflowV (a b s : Nat) : Bool :=
  (a.testBit 7 && b.testBit 7 && !s.testBit 7) || (!a.testBit 7 && !b.testBit 7 && s.testBit 7)

/-- `carry(s)`: bit 8 of s (R73). -/
def carryOut (s : Nat) : Bool := s.testBit 8

/-- `neg(s)`: bit 7 of s (R73). -/
def negOf (s : Nat) : Bool := s.testBit 7

/-- `zero(s)`: whether `s & 0xFF` is 0 (R73). -/
def zeroOf (s : Nat) : Bool := decide (s % 256 = 0)

/-- `Neg8(b) = (256 - b) mod 256`, so that `Neg8(0) = 0` (R73, decision D8). -/
def neg8 (b : Nat) : Nat := (256 - b) % 256

/-- `ADD_VF(a, b, s)` under each value of ADD_VF_RULE, with `cf` the flag before the instruction (R74, decision D6). -/
def addVf (rule : AddVfRule) (cf : Bool) (a b s : Nat) : Bool :=
  match rule with
  | .carryOrOverflow => carryOut s || overflowV a b s
  | .overflow => overflowV a b s
  | .cfinOrOverflow => cf || overflowV a b s

/-- The flags SUB and CMP write (R76, R78): CF kept; VF, NF and ZF from `s = a + Neg8(b)`. -/
def subFlags (f : Flags) (a b : Nat) : Flags :=
  let s := a + neg8 b
  { f with vf := overflowV a (neg8 b) s, nf := negOf s, zf := zeroOf s }

/-- The flags AND, OR and EOR write (R79): CF kept, VF 0, NF and ZF from the result. -/
def logicFlags (f : Flags) (r : Byte) : Flags :=
  { f with vf := false, nf := r.getLsbD 7, zf := decide (r = 0x00#8) }

/-! ## The shift/rotate unit (R83-R91) -/

/-- What a variant answers: the result, the bit moved out (CF), and VF (R83). -/
structure ShiftOut where
  r : Byte
  c : Bool
  v : Bool
  deriving DecidableEq, Repr

/-- The flags every variant writes (R83). -/
def shiftFlags (o : ShiftOut) : Flags :=
  { cf := o.c, vf := o.v, nf := o.r.getLsbD 7, zf := decide (o.r = 0x00#8) }

/-- SRA (R84): `r = (x >> 1) | (x & 0x80)`, `c = x[0]`, `v = 0`. -/
def variantSra (x : Byte) (_cf : Bool) : ShiftOut := ⟨(x >>> 1) ||| (x &&& 0x80#8), x.getLsbD 0, false⟩

/-- SLA (R85): `r = (x << 1) & 0xFF`, `c = x[7]`, `v = x[7] ^ r[7]`. -/
def variantSla (x : Byte) (_cf : Bool) : ShiftOut :=
  let r := x <<< 1
  ⟨r, x.getLsbD 7, x.getLsbD 7 ^^ r.getLsbD 7⟩

/-- SRL (R86): `r = x >> 1`, `c = x[0]`, `v = 0`. -/
def variantSrl (x : Byte) (_cf : Bool) : ShiftOut := ⟨x >>> 1, x.getLsbD 0, false⟩

/-- SLL (R87): `r = (x << 1) & 0xFF`, `c = x[7]`, `v = 0`. -/
def variantSll (x : Byte) (_cf : Bool) : ShiftOut := ⟨x <<< 1, x.getLsbD 7, false⟩

/-- RRA (R88): `r = (CF << 7) | (x >> 1)`, `c = x[0]`, `v = 0`. -/
def variantRra (x : Byte) (cf : Bool) : ShiftOut :=
  ⟨(if cf then 0x80#8 else 0x00#8) ||| (x >>> 1), x.getLsbD 0, false⟩

/-- RLA (R89): `r = ((x << 1) & 0xFF) | CF`, `c = x[7]`, `v = x[7] ^ r[7]`. -/
def variantRla (x : Byte) (cf : Bool) : ShiftOut :=
  let r := (x <<< 1) ||| (if cf then 0x01#8 else 0x00#8)
  ⟨r, x.getLsbD 7, x.getLsbD 7 ^^ r.getLsbD 7⟩

/-- RRL (R90): `r = (x[0] << 7) | (x >> 1)`, `c = x[0]`, `v = 0`. -/
def variantRrl (x : Byte) (_cf : Bool) : ShiftOut :=
  ⟨(if x.getLsbD 0 then 0x80#8 else 0x00#8) ||| (x >>> 1), x.getLsbD 0, false⟩

/-- RLL (R91): `r = ((x << 1) & 0xFF) | x[7]`, `c = x[7]`, `v = 0`. -/
def variantRll (x : Byte) (_cf : Bool) : ShiftOut :=
  ⟨(x <<< 1) ||| (if x.getLsbD 7 then 0x01#8 else 0x00#8), x.getLsbD 7, false⟩

/-! ## The branch conditions (R94) -/

/-- Condition 0: always. -/
def cond0 (_s : State) : Bool := true

/-- Condition 1: `!ZF`. -/
def cond1 (s : State) : Bool := !s.flags.zf

/-- Condition 2: `!NF`. -/
def cond2 (s : State) : Bool := !s.flags.nf

/-- Condition 3: `!(NF | ZF)`. -/
def cond3 (s : State) : Bool := !(s.flags.nf || s.flags.zf)

/-- Condition 4: `!ibuf.ready`. -/
def cond4 (s : State) : Bool := !s.ibuf.ready

/-- Condition 5: `!CF`. -/
def cond5 (s : State) : Bool := !s.flags.cf

/-- Condition 6: `!(VF ^ NF)`. -/
def cond6 (s : State) : Bool := !(s.flags.vf ^^ s.flags.nf)

/-- Condition 7: `!((VF ^ NF) | ZF)`. -/
def cond7 (s : State) : Bool := !((s.flags.vf ^^ s.flags.nf) || s.flags.zf)

/-- Condition 8: `VF`. -/
def cond8 (s : State) : Bool := s.flags.vf

/-- Condition 9: `ZF`. -/
def cond9 (s : State) : Bool := s.flags.zf

/-- Condition 10: `NF`. -/
def cond10 (s : State) : Bool := s.flags.nf

/-- Condition 11: `NF | ZF`. -/
def cond11 (s : State) : Bool := s.flags.nf || s.flags.zf

/-- Condition 12: `obuf.ready`. -/
def cond12 (s : State) : Bool := s.obuf.ready

/-- Condition 13: `CF`. -/
def cond13 (s : State) : Bool := s.flags.cf

/-- Condition 14: `VF ^ NF`. -/
def cond14 (s : State) : Bool := s.flags.vf ^^ s.flags.nf

/-- Condition 15: `(VF ^ NF) | ZF`. -/
def cond15 (s : State) : Bool := (s.flags.vf ^^ s.flags.nf) || s.flags.zf

end Sys2Proof.Machine
end

