-- ==== Sys2Proof/Machine/Operands.lean ====
section
/-! DEFINITION. The operand resolver (R68-R70): every addressing mode of R69 as a source, and the destination of ST. -/

namespace Sys2Proof.Machine

/-- `ResolveB(B)` (R68). Selectors 0 and 1 read a register with no fetch; selector 2 is the second word; a memory mode
reads the cell at `EA(B, d)`. -/
def resolveB (sel : Selector) (s : State) : Resolved Byte :=
  match sel with
  | .acc => .ok s.acc s
  | .ix => .ok s.ix s
  | .imm => fetchByte s.opcodeAddr s
  | .mem m =>
    (fetchByte s.opcodeAddr s).bind fun d s1 =>
      (ea s.opcodeAddr m d s1).bind fun e s2 => memRead s.opcodeAddr e s2

/-- `ResolveDest(B)` (R70), for ST alone. Selectors 0, 1 and 2 raise IllegalOperand, with the instruction byte `ir`, before
anything is fetched (decision D11). -/
def resolveDest (ir : Byte) (sel : Selector) (s : State) : Resolved Nat :=
  match sel with
  | .acc => .raised (raise s.opcodeAddr (.illegalOperand ir) s)
  | .ix => .raised (raise s.opcodeAddr (.illegalOperand ir) s)
  | .imm => .raised (raise s.opcodeAddr (.illegalOperand ir) s)
  | .mem m => (fetchByte s.opcodeAddr s).bind fun d s1 => ea s.opcodeAddr m d s1

/-- The shape of every instruction that reads both operands (R71, R74-R81): `b <- ResolveB(B)`, then `k a b` on the state
the resolver left, with `a` the value of `x[A]` before the instruction. Operands are read before anything is written (R13). -/
def withOperands (a : Reg) (b : OperandB) (k : Byte → Byte → State → State) (s : State) : Result :=
  (resolveB b.fold s).andThen fun y t => .next (k (s.reg a) y t)

end Sys2Proof.Machine
end

