-- ==== Sys2Proof/Machine/Alu.lean ====
section
/-! DEFINITION. The ALU instructions (R73-R82): ADD, ADC, SUB, SBC, CMP, AND, OR, EOR. The carry and overflow conventions are
the spec's, bit for bit, "even where they look asymmetric". -/

namespace Sys2Proof.Machine

/-- ADD (R74): `s <- a + b`; VF by ADD_VF_RULE, NF, ZF; CF is neither added nor written. -/
def execAdd (a : Reg) (b : OperandB) (s : State) : Result :=
  withOperands a b (fun x y t =>
    let sum := x.toNat + y.toNat
    (t.setFlags { t.flags with
      vf := addVf t.cfg.addVfRule t.flags.cf x.toNat y.toNat sum, nf := negOf sum, zf := zeroOf sum }).setReg a
        (BitVec.ofNat 8 sum)) s

/-- ADC (R75): `s <- a + b + CF`; all four flags. -/
def execAdc (a : Reg) (b : OperandB) (s : State) : Result :=
  withOperands a b (fun x y t =>
    let sum := x.toNat + y.toNat + t.flags.cf.toNat
    (t.setFlags { cf := carryOut sum, vf := overflowV x.toNat y.toNat sum, nf := negOf sum, zf := zeroOf sum }).setReg a
      (BitVec.ofNat 8 sum)) s

/-- SUB (R76): `s <- a + Neg8(b)`; VF, NF, ZF; CF not written. -/
def execSub (a : Reg) (b : OperandB) (s : State) : Result :=
  withOperands a b (fun x y t =>
    (t.setFlags (subFlags t.flags x.toNat y.toNat)).setReg a (BitVec.ofNat 8 (x.toNat + neg8 y.toNat))) s

/-- SBC (R77): `s <- (a + Neg8(b) - CF) mod 512`, where -1 becomes 0x1FF; CF is the inverse of bit 8. -/
def execSbc (a : Reg) (b : OperandB) (s : State) : Result :=
  withOperands a b (fun x y t =>
    let nb := neg8 y.toNat
    let sum := (x.toNat + nb + 512 - t.flags.cf.toNat) % 512
    (t.setFlags { cf := !carryOut sum, vf := overflowV x.toNat nb sum, nf := negOf sum, zf := zeroOf sum }).setReg a
      (BitVec.ofNat 8 sum)) s

/-- CMP (R78): the flags of SUB, and no register. -/
def execCmp (a : Reg) (b : OperandB) (s : State) : Result :=
  withOperands a b (fun x y t => t.setFlags (subFlags t.flags x.toNat y.toNat)) s

/-- AND (R79): `r <- a & b`. -/
def execAnd (a : Reg) (b : OperandB) (s : State) : Result :=
  withOperands a b (fun x y t => (t.setFlags (logicFlags t.flags (x &&& y))).setReg a (x &&& y)) s

/-- OR (R80): `r <- a | b`. -/
def execOr (a : Reg) (b : OperandB) (s : State) : Result :=
  withOperands a b (fun x y t => (t.setFlags (logicFlags t.flags (x ||| y))).setReg a (x ||| y)) s

/-- EOR (R81): `r <- a ^ b`. -/
def execEor (a : Reg) (b : OperandB) (s : State) : Result :=
  withOperands a b (fun x y t => (t.setFlags (logicFlags t.flags (x ^^^ y))).setReg a (x ^^^ y)) s

end Sys2Proof.Machine
end

