-- ==== Sys2Proof/Machine/Branch.lean ====
section
/-! DEFINITION. The conditional branch BBC, one meaning for each of its sixteen conditions (R93, R94). -/

namespace Sys2Proof.Machine

/-- `BBC(c)` (R93): the target is always fetched, and `pc` becomes it when the condition holds. `taken` is the condition on
the flags and ready bits as they stand before the instruction. -/
def branchIf (taken : Bool) (s : State) : Result :=
  (fetchByte s.opcodeAddr s).andThen fun t u => .next (if taken then u.setPc t.toNat else u)

/-- BBC 0 (R93, R94). -/
def execBbc0 (s : State) : Result := branchIf (cond0 s) s

/-- BBC 1 (R93, R94). -/
def execBbc1 (s : State) : Result := branchIf (cond1 s) s

/-- BBC 2 (R93, R94). -/
def execBbc2 (s : State) : Result := branchIf (cond2 s) s

/-- BBC 3 (R93, R94). -/
def execBbc3 (s : State) : Result := branchIf (cond3 s) s

/-- BBC 4 (R93, R94). -/
def execBbc4 (s : State) : Result := branchIf (cond4 s) s

/-- BBC 5 (R93, R94). -/
def execBbc5 (s : State) : Result := branchIf (cond5 s) s

/-- BBC 6 (R93, R94). -/
def execBbc6 (s : State) : Result := branchIf (cond6 s) s

/-- BBC 7 (R93, R94). -/
def execBbc7 (s : State) : Result := branchIf (cond7 s) s

/-- BBC 8 (R93, R94). -/
def execBbc8 (s : State) : Result := branchIf (cond8 s) s

/-- BBC 9 (R93, R94). -/
def execBbc9 (s : State) : Result := branchIf (cond9 s) s

/-- BBC 10 (R93, R94). -/
def execBbc10 (s : State) : Result := branchIf (cond10 s) s

/-- BBC 11 (R93, R94). -/
def execBbc11 (s : State) : Result := branchIf (cond11 s) s

/-- BBC 12 (R93, R94). -/
def execBbc12 (s : State) : Result := branchIf (cond12 s) s

/-- BBC 13 (R93, R94). -/
def execBbc13 (s : State) : Result := branchIf (cond13 s) s

/-- BBC 14 (R93, R94). -/
def execBbc14 (s : State) : Result := branchIf (cond14 s) s

/-- BBC 15 (R93, R94). -/
def execBbc15 (s : State) : Result := branchIf (cond15 s) s

end Sys2Proof.Machine
end

