-- ==== Sys2Proof/Machine/Control.lean ====
section
/-! DEFINITION. Control transfer, halt and the carry flag (R95-R100): JAL, JR, NOP, HLT, RCF, SCF. -/

namespace Sys2Proof.Machine

/-- JAL (R95): the target is fetched, ACC takes the return address modulo 256 (decision D5), and `pc` the target. -/
def execJal (s : State) : Result :=
  (fetchByte s.opcodeAddr s).andThen fun t u => .next ((u.setReg .acc (BitVec.ofNat 8 u.pc)).setPc t.toNat)

/-- JR (R96): `pc <- x[0]`. -/
def execJr (s : State) : Result := .next (s.setPc s.acc.toNat)

/-- NOP (R97): nothing beyond the fetch's advance of `pc`. -/
def execNop (s : State) : Result := .next s

/-- HLT (R98): `run <- Halted(HLT)`. It is the normal stop, and emits no diagnostic. -/
def execHlt (s : State) : Result := .next { s with run := .halted .hlt }

/-- RCF (R99): `CF <- 0`. -/
def execRcf (s : State) : Result := .next (s.setCf false)

/-- SCF (R100): `CF <- 1`. -/
def execScf (s : State) : Result := .next (s.setCf true)

end Sys2Proof.Machine
end

