-- ==== Sys2Proof/Machine/Io.lean ====
section
/-! DEFINITION. The I/O instructions OUT and IN over the two handshake buffers (R101-R104). Neither ever waits. -/

namespace Sys2Proof.Machine

/-- OUT (R101): `obuf.value <- x[0]; obuf.ready <- 1`, over a pending value too (decision D17). -/
def execOut (s : State) : Result := .next { s with obuf := { value := s.acc, ready := true } }

/-- IN (R102): `x[0] <- ibuf.value; ibuf.ready <- 0`, with no value pending too (decision D17). -/
def execInp (s : State) : Result :=
  .next { s.setReg .acc s.ibuf.value with ibuf := { s.ibuf with ready := false } }

end Sys2Proof.Machine
end

