-- ==== Sys2Proof/Machine/LoadStore.lean ====
section
/-! DEFINITION. LD and ST (R71, R72). Neither writes a flag (decision D9). -/

namespace Sys2Proof.Machine

/-- LD (R71): `v <- ResolveB(B); x[A] <- v`. -/
def execLd (a : Reg) (b : OperandB) (s : State) : Result :=
  (resolveB b.fold s).andThen fun v t => .next (t.setReg a v)

/-- ST (R72): `e <- ResolveDest(B); MemWrite(e, 1, x[A])`. The instruction byte that an IllegalOperand records is the byte
this instruction is encoded in, which is unique (format AB has no ignored bit, R56). -/
def execSt (a : Reg) (b : OperandB) (s : State) : Result :=
  (resolveDest (opcodeByte (.st a b)) b.fold s).andThen fun e t =>
    (memWrite s.opcodeAddr e (s.reg a) t).andThen fun _ u => .next u

end Sys2Proof.Machine
end

