-- ==== Sys2Proof/Machine/Shift.lean ====
section
/-! DEFINITION. The shift and rotate instructions (R83-R91), on the operand-A register alone. None of them fetches a second
word, and none raises an error. -/

namespace Sys2Proof.Machine

/-- `SRSM(A, mode)` (R83): a variant applied to the old `x[A]` and the old CF; all four flags, then `x[A]`. -/
def shiftReg (variant : Byte → Bool → ShiftOut) (a : Reg) (s : State) : Result :=
  let o := variant (s.reg a) s.flags.cf
  .next ((s.setFlags (shiftFlags o)).setReg a o.r)

/-- SRA (R84). -/
def execSra (a : Reg) (s : State) : Result := shiftReg variantSra a s

/-- SLA (R85). -/
def execSla (a : Reg) (s : State) : Result := shiftReg variantSla a s

/-- SRL (R86). -/
def execSrl (a : Reg) (s : State) : Result := shiftReg variantSrl a s

/-- SLL (R87). -/
def execSll (a : Reg) (s : State) : Result := shiftReg variantSll a s

/-- RRA (R88). -/
def execRra (a : Reg) (s : State) : Result := shiftReg variantRra a s

/-- RLA (R89). -/
def execRla (a : Reg) (s : State) : Result := shiftReg variantRla a s

/-- RRL (R90). -/
def execRrl (a : Reg) (s : State) : Result := shiftReg variantRrl a s

/-- RLL (R91). -/
def execRll (a : Reg) (s : State) : Result := shiftReg variantRll a s

end Sys2Proof.Machine
end

