-- ==== Sys2Proof/Machine/Dispatch.lean ====
section
/-! DEFINITION. `Execute(ins)` of R51: one arm per instruction, each one call of its meaning. -/

namespace Sys2Proof.Machine

def exec (i : Instr) (s : State) : Host.Outcome State Fault Refusal :=
  match i with
  | .nop => Sys2Proof.Machine.execNop s
  | .jal => Sys2Proof.Machine.execJal s
  | .jr => Sys2Proof.Machine.execJr s
  | .hlt => Sys2Proof.Machine.execHlt s
  | .out => Sys2Proof.Machine.execOut s
  | .inp => Sys2Proof.Machine.execInp s
  | .rcf => Sys2Proof.Machine.execRcf s
  | .scf => Sys2Proof.Machine.execScf s
  | .bbc0 => Sys2Proof.Machine.execBbc0 s
  | .bbc1 => Sys2Proof.Machine.execBbc1 s
  | .bbc2 => Sys2Proof.Machine.execBbc2 s
  | .bbc3 => Sys2Proof.Machine.execBbc3 s
  | .bbc4 => Sys2Proof.Machine.execBbc4 s
  | .bbc5 => Sys2Proof.Machine.execBbc5 s
  | .bbc6 => Sys2Proof.Machine.execBbc6 s
  | .bbc7 => Sys2Proof.Machine.execBbc7 s
  | .bbc8 => Sys2Proof.Machine.execBbc8 s
  | .bbc9 => Sys2Proof.Machine.execBbc9 s
  | .bbc10 => Sys2Proof.Machine.execBbc10 s
  | .bbc11 => Sys2Proof.Machine.execBbc11 s
  | .bbc12 => Sys2Proof.Machine.execBbc12 s
  | .bbc13 => Sys2Proof.Machine.execBbc13 s
  | .bbc14 => Sys2Proof.Machine.execBbc14 s
  | .bbc15 => Sys2Proof.Machine.execBbc15 s
  | .sra a => Sys2Proof.Machine.execSra a s
  | .sla a => Sys2Proof.Machine.execSla a s
  | .srl a => Sys2Proof.Machine.execSrl a s
  | .sll a => Sys2Proof.Machine.execSll a s
  | .rra a => Sys2Proof.Machine.execRra a s
  | .rla a => Sys2Proof.Machine.execRla a s
  | .rrl a => Sys2Proof.Machine.execRrl a s
  | .rll a => Sys2Proof.Machine.execRll a s
  | .ld a b => Sys2Proof.Machine.execLd a b s
  | .st a b => Sys2Proof.Machine.execSt a b s
  | .sbc a b => Sys2Proof.Machine.execSbc a b s
  | .adc a b => Sys2Proof.Machine.execAdc a b s
  | .sub a b => Sys2Proof.Machine.execSub a b s
  | .add a b => Sys2Proof.Machine.execAdd a b s
  | .eor a b => Sys2Proof.Machine.execEor a b s
  | .or a b => Sys2Proof.Machine.execOr a b s
  | .and a b => Sys2Proof.Machine.execAnd a b s
  | .cmp a b => Sys2Proof.Machine.execCmp a b s

end Sys2Proof.Machine
end

