-- ==== Sys2Proof/Machine/Step.lean ====
section
/-! DEFINITION. One step of the CORE (R51, R105, R106), and where the host places an instruction for it. -/

namespace Sys2Proof.Machine

/-- `Step()` (R51). From Running: fetch, decode, execute, each of which may end the step by raising an error halt. From
Halted there is no step (R106). -/
def step (s : State) : Host.Outcome State Fault Refusal :=
  match s.run with
  | .halted r => .refused (.noStepFromHalted r)
  | .running => (fetchDecode s).andThen exec

/-- `s` with the instruction whose bits are `w` (those from `nbits` up taken as 0) stored where `step` fetches its next
instruction, at `pc`. It stands for the external loader, which places programs (R4, R121; log entry 4). -/
def State.withFetchWord (s : State) (nbits w : Nat) : State := placeInstruction s (w % 2 ^ nbits)

end Sys2Proof.Machine
end

