-- ==== Sys2Proof/Machine/HostPort.lean ====
section
/-! DEFINITION. The host's side of the interface: the launch state that the loader leaves (the parameter LaunchState of R6,
R32, R121), the host actions of R46 (R29, R30), and a run, in which host actions stand between steps (the parameter
HostSchedule of R6, R45, R46). A step itself never depends on the host: it is an atomic transaction (R5, R45). -/

namespace Sys2Proof.Machine

/-! ## The loader (R121) -/

/-- Fills cells with the program image and its data (R121.1). A cell outside [0, 511] does not exist (R33) and is dropped. -/
def State.load (s : State) : List Host.Cell → State
  | [] => s
  | (a, v) :: rest => State.load (if a < 512 then { s with mem := s.mem.write a v } else s) rest

/-- The default launch state of R32 with an image loaded and `pc` at its first instruction (R121.1-R121.3). -/
def State.launch (image : List Host.Cell) (entry : Nat) : State := (State.reset.load image).setPc entry

/-- The states a loader may hand over (LaunchState: R6, R32, R121): any u8 and bit values, any memory, Running, and `pc` a
valid index; no diagnostic has been emitted yet. DESIGN CHOICE: `pc` may be any index of the array (R18), 256 to 511 too,
where R121.2 asks the loader for a program-space instruction (log entry 4). -/
def State.isLaunch (s : State) : Bool :=
  s.mem.wf && decide (s.pc < 512) && decide (s.run = .running) && decide (s.diag = [])

/-! ## Host actions (R46) -/

/-- The actions of R46 that touch the machine; Stop is the end of a schedule. -/
inductive HostAction where
  /-- Produce(v): the external producer presents a value. -/
  | produce (v : Byte)
  /-- Consume: the external consumer takes the output value. -/
  | consume
  /-- Inspect: reads any field of R14. -/
  | inspect
  deriving DecidableEq, Repr

/-- What a host action does to the machine (R30, R46). Produce loses an unread value, with no error. DESIGN CHOICE: it does the
same to a halted machine; R46 speaks of actions between two steps, and R127 does not say what the host does with `obuf`
after the end (log entry 8). `run` is never changed (R106). -/
def hostAct : HostAction → State → State
  | .produce v, s => { s with ibuf := { value := v, ready := true } }
  | .consume, s => { s with obuf := { s.obuf with ready := false } }
  | .inspect, s => s

/-- What the consumer reads when it consumes (R30, R46). -/
def consumedValue (s : State) : Byte := s.obuf.value

/-! ## Runs (R28, R45, R46, R127) -/

/-- One entry of a schedule: the host issues `step`, or acts while no step is under way. -/
inductive HostEvent where
  | step
  | act (a : HostAction)
  deriving DecidableEq, Repr

/-- A run under a host schedule. The end of the list is Stop: the host issues no more steps (R46, R127.3). A step issued to a
halted machine is refused (R106). DESIGN CHOICE: host actions may also come before the first step and after the step that
halts, where R46 and R127 leave them open (log entry 8). -/
def runSchedule : List HostEvent → State → Result
  | [], s => .next s
  | .act a :: rest, s => runSchedule rest (hostAct a s)
  | .step :: rest, s =>
    match step s with
    | .next t => runSchedule rest t
    | .fault r => .fault r
    | .refused r => .refused r

end Sys2Proof.Machine
end

