-- ==== Sys2Proof/Safety.lean ====
section
/-! DEFINITION. What counts as a good or a bad end of a run (R127), the invariant of reachable states, and the words that
statements are written in: an instruction's operand as a value, an address or an error; what a step halts with; which
instructions write which field. The words are written from the spec's tables, not from the meanings. -/

namespace Sys2Proof

/-! ## Numbers of fields, as the spec writes them (R54, R69) -/

/-- A, as the number of R54. -/
def Reg.number : Reg → Nat
  | .acc => 0
  | .ix => 1

/-- Raw operand B, as the number in R69's first column. -/
def OperandB.number : OperandB → Nat
  | .acc => 0
  | .ix => 1
  | .imm => 2
  | .immFolded => 3
  | .mem .progAbs => 4
  | .mem .dataAbs => 5
  | .mem .progIdx => 6
  | .mem .dataIdx => 7

/-! ## Groups of instructions -/

/-- The operand B of every instruction of format AB (R56), ST among them. -/
def Instr.operand : Instr → Option OperandB
  | .ld _ b | .st _ b | .sbc _ b | .adc _ b | .sub _ b => some b
  | .add _ b | .eor _ b | .or _ b | .and _ b | .cmp _ b => some b
  | .nop | .jal | .jr | .hlt | .out | .inp | .rcf | .scf => none
  | .bbc0 | .bbc1 | .bbc2 | .bbc3 | .bbc4 | .bbc5 | .bbc6 | .bbc7 => none
  | .bbc8 | .bbc9 | .bbc10 | .bbc11 | .bbc12 | .bbc13 | .bbc14 | .bbc15 => none
  | .sra _ | .sla _ | .srl _ | .sll _ | .rra _ | .rla _ | .rrl _ | .rll _ => none

/-- The registers an instruction writes when it completes (R15, R16). -/
def Instr.writesReg : Instr → Reg → Bool
  | .ld a _, r | .sbc a _, r | .adc a _, r | .sub a _, r | .add a _, r => decide (a = r)
  | .eor a _, r | .or a _, r | .and a _, r => decide (a = r)
  | .sra a, r | .sla a, r | .srl a, r | .sll a, r | .rra a, r | .rla a, r | .rrl a, r | .rll a, r => decide (a = r)
  | .inp, r | .jal, r => decide (r = .acc)
  | .st _ _, _ | .cmp _ _, _ | .nop, _ | .jr, _ | .hlt, _ | .out, _ | .rcf, _ | .scf, _ => false
  | .bbc0, _ | .bbc1, _ | .bbc2, _ | .bbc3, _ | .bbc4, _ | .bbc5, _ | .bbc6, _ | .bbc7, _ => false
  | .bbc8, _ | .bbc9, _ | .bbc10, _ | .bbc11, _ | .bbc12, _ | .bbc13, _ | .bbc14, _ | .bbc15, _ => false

/-- R21's table: for each flag, whether the instruction writes it ("w") or leaves it unchanged ("-"). -/
def Instr.writesFlags : Instr → Machine.Flags
  | .adc _ _ | .sbc _ _ => { cf := true, vf := true, nf := true, zf := true }
  | .add _ _ | .sub _ _ | .cmp _ _ => { cf := false, vf := true, nf := true, zf := true }
  | .and _ _ | .or _ _ | .eor _ _ => { cf := false, vf := true, nf := true, zf := true }
  | .sra _ | .sla _ | .srl _ | .sll _ => { cf := true, vf := true, nf := true, zf := true }
  | .rra _ | .rla _ | .rrl _ | .rll _ => { cf := true, vf := true, nf := true, zf := true }
  | .rcf | .scf => { cf := true, vf := false, nf := false, zf := false }
  | .ld _ _ | .st _ _ | .nop | .jal | .jr | .hlt | .out | .inp => { cf := false, vf := false, nf := false, zf := false }
  | .bbc0 | .bbc1 | .bbc2 | .bbc3 | .bbc4 | .bbc5 | .bbc6 | .bbc7 => { cf := false, vf := false, nf := false, zf := false }
  | .bbc8 | .bbc9 | .bbc10 | .bbc11 | .bbc12 | .bbc13 | .bbc14 | .bbc15 =>
    { cf := false, vf := false, nf := false, zf := false }

end Sys2Proof

namespace Sys2Proof.Machine

/-! ## The end of a run (R127) -/

/-- A normal end: Halted(HLT) (R127.1). A claim's postcondition reads such a state. -/
def State.normalEnd (s : State) : Bool := decide (s.run = .halted .hlt)

/-- An error end: Halted with an error (R127.2). It is never a successful final state. -/
def State.errorEnd (s : State) : Bool :=
  match s.run with
  | .running => false
  | .halted r => r.isError

/-! ## Operands, on the state that an instruction executes in (`pc` one past its opcode byte, R19) -/

/-- The second word: the byte right after the opcode byte (R52). -/
def State.secondWord (s : State) : Byte := s.mem.read s.pc

/-- The index a memory operand or a store names: R35's `base + off`, with IX as it stands before the instruction. -/
def State.memAddr (s : State) (m : MemMode) : Nat := effAddr m s.ix s.secondWord

/-- The out-of-range index met in resolving an operand, the second-word fetch before the effective address (R68, R113);
`none` where the operand can be resolved. -/
def State.operandError (s : State) : OperandB → Option Nat
  | .acc => none
  | .ix => none
  | .imm => if s.pc < 512 then none else some s.pc
  | .immFolded => if s.pc < 512 then none else some s.pc
  | .mem m => if s.pc < 512 then (if s.memAddr m < 512 then none else some (s.memAddr m)) else some s.pc

/-- The value of an operand (R69's fourth column). -/
def State.operandValue (s : State) : OperandB → Byte
  | .acc => s.acc
  | .ix => s.ix
  | .imm => s.secondWord
  | .immFolded => s.secondWord
  | .mem m => s.mem.read (s.memAddr m)

/-- `pc` after an operand was resolved (R69's fifth column): one further where there is a second word. -/
def State.operandPc (s : State) : OperandB → Nat
  | .acc => s.pc
  | .ix => s.pc
  | .imm => s.pc + 1
  | .immFolded => s.pc + 1
  | .mem _ => s.pc + 1

/-- The state that an error met while an instruction executes leaves behind (R111, R112): `pc` at `n`, `run` = Halted(r), and
one record on the diagnostic port with the address of the opcode byte, one below `s.pc`. -/
def State.haltedWith (s : State) (r : HaltReason) (n : Nat) : State :=
  { s with pc := n, run := .halted r, diag := s.diag ++ [{ reason := r, opcodeAddr := s.pc - 1 }] }

/-- The state an AddressOutOfRange met in resolving operand `b` leaves behind (R110). A fetch that fails has not advanced
`pc`; an effective address that fails comes after the second word was fetched. -/
def State.operandHalt (s : State) (e : Nat) : State :=
  s.haltedWith (.addressOutOfRange e) (if s.pc < 512 then s.pc + 1 else s.pc)

/-! ## What a step halts with (R105, R113) -/

/-- What an instruction halts with, executed in `s`; `none` where it continues (R98, R109, R110). -/
def executeHalt (i : Instr) (s : State) : Option HaltReason :=
  match i with
  | .hlt => some .hlt
  | .st _ b => if b.isStoreDest then (s.operandError b).map .addressOutOfRange else some (.illegalOperand (opcodeByte i))
  | .ld _ b | .sbc _ b | .adc _ b | .sub _ b => (s.operandError b).map .addressOutOfRange
  | .add _ b | .eor _ b | .or _ b | .and _ b | .cmp _ b => (s.operandError b).map .addressOutOfRange
  | .jal => if s.pc < 512 then none else some (.addressOutOfRange s.pc)
  | .bbc0 | .bbc1 | .bbc2 | .bbc3 | .bbc4 | .bbc5 | .bbc6 | .bbc7 =>
    if s.pc < 512 then none else some (.addressOutOfRange s.pc)
  | .bbc8 | .bbc9 | .bbc10 | .bbc11 | .bbc12 | .bbc13 | .bbc14 | .bbc15 =>
    if s.pc < 512 then none else some (.addressOutOfRange s.pc)
  | .nop | .jr | .out | .inp | .rcf | .scf => none
  | .sra _ | .sla _ | .srl _ | .sll _ | .rra _ | .rla _ | .rrl _ | .rll _ => none

/-- What a step from Running halts with, in the order of R113: the opcode fetch, the decoder, then the instruction; `none`
where it continues. -/
def stepHalt (s : State) : Option HaltReason :=
  if s.pc < 512 then
    match decodeOpcode (s.mem.read s.pc) with
    | .error _ => some (.unknownInstruction (s.mem.read s.pc))
    | .ok i => executeHalt i (s.setPc (s.pc + 1))
  else some (.addressOutOfRange s.pc)

/-- The run state that a halt reason, or none, stands for (R105). -/
def RunState.ofHalt : Option HaltReason → RunState
  | none => .running
  | some r => .halted r

/-- Where an instruction at `s.pc` sends control, or `none` where it goes on to the next (R19, R93, R95, R96). -/
def transferTarget (i : Instr) (s : State) : Option Nat :=
  let t := (s.mem.read (s.pc + 1)).toNat
  match i with
  | .jal => some t
  | .jr => some s.acc.toNat
  | .bbc0 => if cond0 s then some t else none
  | .bbc1 => if cond1 s then some t else none
  | .bbc2 => if cond2 s then some t else none
  | .bbc3 => if cond3 s then some t else none
  | .bbc4 => if cond4 s then some t else none
  | .bbc5 => if cond5 s then some t else none
  | .bbc6 => if cond6 s then some t else none
  | .bbc7 => if cond7 s then some t else none
  | .bbc8 => if cond8 s then some t else none
  | .bbc9 => if cond9 s then some t else none
  | .bbc10 => if cond10 s then some t else none
  | .bbc11 => if cond11 s then some t else none
  | .bbc12 => if cond12 s then some t else none
  | .bbc13 => if cond13 s then some t else none
  | .bbc14 => if cond14 s then some t else none
  | .bbc15 => if cond15 s then some t else none
  | .nop | .hlt | .out | .inp | .rcf | .scf => none
  | .sra _ | .sla _ | .srl _ | .sll _ | .rra _ | .rla _ | .rrl _ | .rll _ => none
  | .ld _ _ | .st _ _ | .sbc _ _ | .adc _ _ | .sub _ _ | .add _ _ | .eor _ _ | .or _ _ | .and _ _ | .cmp _ _ => none

/-! ## The invariant of reachable states -/

/-- The recorded value of a halt reason is one that R107 admits. -/
def HaltReason.legit : HaltReason → Prop
  | .hlt => True
  | .unknownInstruction ir => decodeOpcode ir = .error (.unknownInstruction ir)
  | .illegalOperand ir => ∃ a b, decodeOpcode ir = .ok (.st a b) ∧ b.isStoreDest = false
  | .addressOutOfRange n => 512 ≤ n ∧ n ≤ 766

/-- The run state and the diagnostic port agree (R107, R112): nothing was emitted while Running or after HLT; one record
stands after an error halt, with its reason, and with an opcode address that `pc` has passed by at most two fetches. -/
def State.diagAgrees (s : State) : Prop :=
  match s.run with
  | .running => s.diag = []
  | .halted r =>
    r.legit ∧
      if r.isError then ∃ n, s.diag = [{ reason := r, opcodeAddr := n }] ∧ n ≤ s.pc ∧ s.pc ≤ n + 2 else s.diag = []

/-- The invariant: memory is canonical (R33: 512 cells), `pc` is in [0, 512] (R18), and the run state, its recorded value
and the diagnostic port agree. -/
structure State.Inv (s : State) : Prop where
  mem_wf : s.mem.wf = true
  pc_le : s.pc ≤ 512
  diag_agrees : s.diagAgrees

end Sys2Proof.Machine
end

