-- ==== Sys2Proof/Certificates/Slice0/Obligations.lean ====
section
/-! DEFINITION. The statements about this machine. Each formalises a numbered rule of spec/, or follows from the rules its
entry of OBLIGATIONS.json cites. Where a clause rests on a decision that the spec marks as its own (D1-D30 of
spec/92_eei_decisions.md), the docstring names it. The words they use beyond the machine's own stand in Safety.lean and at
the head of this file.

Wherever a statement gives the state after an error halt, the record on the diagnostic port (R112) is in the model's own
field `diag` (log entry 3). The record's opcode address is decision D23; where the opcode fetch itself fails there is no
opcode byte, the spec states no address, and `pc` is the model's (log entry 3, DEDUCED). -/

open Sys2Proof Sys2Proof.Machine

namespace Sys2Proof.Claims

/-! ## Words of the statements -/

/-- The byte `ir` names instruction `i`, which takes `n` bytes: one line of R58's table. -/
def Names (ir : Nat) (i : Instr) (n : Nat) : Prop := decodeOpcode (BitVec.ofNat 8 ir) = .ok i ∧ i.length = n

/-- One line of R58's table for a class of format AB whose length depends on the operand. -/
def NamesAB (cls : Nat) (ins : Reg → OperandB → Instr) : Prop :=
  ∀ a b, Names (cls * 16 + 8 * a.number + b.number) (ins a b) (if b = .acc ∨ b = .ix then 1 else 2)

/-- The rule of an instruction of format AB that reads operand B: its encoding in class `cls`; its effect on the state in
which the operand has been resolved (R68, R69, R35; decision D4) and `pc` has passed the second word, given A and the
operand's value; and, where the operand cannot be resolved, the AddressOutOfRange halt, which changes nothing but `pc`, the
run state and the diagnostic port (R110-R112; decisions D1, D3, D23, D26; log entry 3). -/
def OperandRule (cls : Nat) (ins : Reg → OperandB → Instr) (effect : Reg → Byte → State → State) : Prop :=
  ∀ (a : Reg) (b : OperandB) (s : State),
    decodeOpcode (BitVec.ofNat 8 (cls * 16 + 8 * a.number + b.number)) = .ok (ins a b) ∧
      match s.operandError b with
      | none => exec (ins a b) s = .next (effect a (s.operandValue b) (s.setPc (s.operandPc b)))
      | some e => exec (ins a b) s = .next (s.operandHalt e)

/-- Whether an exact signed result falls outside the signed 8-bit range. -/
def signedOverflow (z : Int) : Bool := decide (z < -128 ∨ 127 < z)

/-- NF and ZF of an 8-bit result `n < 256`, as comparisons. -/
def resultFlags (cf vf : Bool) (n : Nat) : Flags := { cf := cf, vf := vf, nf := decide (128 ≤ n), zf := decide (n = 0) }

/-- The VF of a subtraction without borrow (R76): the exact signed overflow, except that it is `a[7]` for b = 0x80. -/
def subVf (x y : Byte) : Bool :=
  if y = 0x80#8 then decide (128 ≤ x.toNat) else signedOverflow (x.toInt - y.toInt)

/-- The flags that SUB and CMP write (R76, R78): CF unchanged, the others from the difference modulo 256. -/
def subtractionFlags (f : Flags) (x y : Byte) : Flags :=
  resultFlags f.cf (subVf x y) ((x.toNat + 256 - y.toNat) % 256)

/-- The CF of SBC (R77): the borrow for b != 0, and for b = 0 the inverse of the borrow. -/
def sbcCf (x y : Byte) (cf : Bool) : Bool :=
  if y = 0x00#8 then !(decide (x = 0x00#8) && cf) else decide (x.toNat < y.toNat + cf.toNat)

/-- The three places where SBC's VF is not the signed overflow of a - b - CF (R77). -/
def sbcVfInverted (x y : Byte) (cf : Bool) : Bool :=
  (decide (y = 0x80#8) && !cf) ||
    (decide (y = 0x80#8) && cf && decide (x ≠ 0x00#8 ∧ x ≠ 0x80#8)) ||
      (decide (y = 0x00#8) && cf && decide (x = 0x00#8 ∨ x = 0x80#8))

/-- The flags AND, OR and EOR write (R79): CF unchanged, VF 0, NF and ZF from the result. -/
def logicResultFlags (f : Flags) (r : Byte) : Flags := resultFlags f.cf false r.toNat

/-- The rule of a right-moving variant (R84, R86, R88, R90): its encodings; every bit one place lower, `pushed` into bit 7;
CF the bit moved out, VF 0, NF and ZF from the result; nothing else changed. -/
def RightRule (mode : Nat) (ins : Reg → Instr) (pushed : Byte → Bool → Bool) : Prop :=
  ∀ (a : Reg) (s : State),
    decodeOpcode (BitVec.ofNat 8 (0x40 + 8 * a.number + mode)) = .ok (ins a) ∧
      ∃ r : Byte,
        (∀ i, i < 7 → r.getLsbD i = (s.reg a).getLsbD (i + 1)) ∧
        r.getLsbD 7 = pushed (s.reg a) s.flags.cf ∧
        exec (ins a) s =
          .next ((s.setFlags (resultFlags ((s.reg a).getLsbD 0) false r.toNat)).setReg a r)

/-- The rule of a left-moving variant (R85, R87, R89, R91): its encodings; every bit one place higher, `pushed` into bit 0;
CF the bit moved out; VF 1 exactly when `arith` and the sign changed; NF and ZF from the result; nothing else changed. -/
def LeftRule (mode : Nat) (ins : Reg → Instr) (pushed : Byte → Bool → Bool) (arith : Bool) : Prop :=
  ∀ (a : Reg) (s : State),
    decodeOpcode (BitVec.ofNat 8 (0x40 + 8 * a.number + mode)) = .ok (ins a) ∧
      ∃ r : Byte,
        (∀ i, i < 7 → r.getLsbD (i + 1) = (s.reg a).getLsbD i) ∧
        r.getLsbD 0 = pushed (s.reg a) s.flags.cf ∧
        exec (ins a) s =
          .next ((s.setFlags (resultFlags ((s.reg a).getLsbD 7)
            (arith && decide ((s.reg a).getLsbD 7 ≠ r.getLsbD 7)) r.toNat)).setReg a r)

/-- Executes one instruction `n` times over; `none` if it ever answers no next state. -/
def repeatExec (i : Instr) : Nat → State → Option State
  | 0, s => some s
  | n + 1, s =>
    match exec i s with
    | .next t => repeatExec i n t
    | .fault _ => none
    | .refused _ => none

/-- The rule of one branch condition (R93, R94): its opcode byte and its length; the target, always fetched, goes to `pc`
when the condition holds, and otherwise `pc` is past both bytes; with the target out of range, AddressOutOfRange. -/
def BranchRule (ir : Nat) (i : Instr) (cond : State → Bool) : Prop :=
  Names ir i 2 ∧
    ∀ s : State,
      (s.pc < 512 → exec i s = .next (s.setPc (if cond s then (s.mem.read s.pc).toNat else s.pc + 1))) ∧
      (512 ≤ s.pc → exec i s = .next (s.haltedWith (.addressOutOfRange s.pc) s.pc))

/-- The sixteen branches (R94). -/
def branches : List Instr :=
  [.bbc0, .bbc1, .bbc2, .bbc3, .bbc4, .bbc5, .bbc6, .bbc7] ++ [.bbc8, .bbc9, .bbc10, .bbc11, .bbc12, .bbc13, .bbc14, .bbc15]

end Sys2Proof.Claims

open Sys2Proof.Claims

/-! ## Encoding -/

/-- Reading the words of any instruction, with any second word and any bytes after them, gives back the instruction, its
second word where it has one, and the bytes after it. -/
def Obligations.DecodeReadsBackEveryEncodedInstruction : Prop :=
  ∀ (i : Instr) (d : Byte) (rest : List Byte),
    decodeBytes (encode i d ++ rest) = .ok (⟨i, if i.length = 2 then some d else none⟩, rest)

/-- R58's map of all 256 opcode bytes, with its lengths, its two unknown ranges, and the ST bytes that halt. The places of
operands A and B are R54's and R55's, the forms of B are R69's with raw 2 and raw 3 kept apart as the model's two terms (log
entry 7), and the numbers of the shift modes are R83's (decision D12; log entry 10). -/
def Obligations.OpcodeMapNamesEveryByte : Prop :=
  (∀ n, n < 8 → Names n .nop 1) ∧
  (∀ n, n = 0x08 ∨ n = 0x09 ∨ (0x50 ≤ n ∧ n ≤ 0x5F) →
    decodeOpcode (BitVec.ofNat 8 n) = .error (.unknownInstruction (BitVec.ofNat 8 n))) ∧
  Names 0x0A .jal 2 ∧ Names 0x0B .jr 1 ∧
  (∀ n, n < 4 → Names (0x0C + n) .hlt 1) ∧
  (∀ n, n < 8 → Names (0x10 + n) .out 1 ∧ Names (0x18 + n) .inp 1) ∧
  (∀ n, n < 8 → Names (0x20 + n) .rcf 1 ∧ Names (0x28 + n) .scf 1) ∧
  (Names 0x30 .bbc0 2 ∧ Names 0x31 .bbc1 2 ∧ Names 0x32 .bbc2 2 ∧ Names 0x33 .bbc3 2 ∧
    Names 0x34 .bbc4 2 ∧ Names 0x35 .bbc5 2 ∧ Names 0x36 .bbc6 2 ∧ Names 0x37 .bbc7 2 ∧
    Names 0x38 .bbc8 2 ∧ Names 0x39 .bbc9 2 ∧ Names 0x3A .bbc10 2 ∧ Names 0x3B .bbc11 2 ∧
    Names 0x3C .bbc12 2 ∧ Names 0x3D .bbc13 2 ∧ Names 0x3E .bbc14 2 ∧ Names 0x3F .bbc15 2) ∧
  (∀ a : Reg,
    Names (0x40 + 8 * a.number + 0) (.sra a) 1 ∧ Names (0x40 + 8 * a.number + 1) (.sla a) 1 ∧
    Names (0x40 + 8 * a.number + 2) (.srl a) 1 ∧ Names (0x40 + 8 * a.number + 3) (.sll a) 1 ∧
    Names (0x40 + 8 * a.number + 4) (.rra a) 1 ∧ Names (0x40 + 8 * a.number + 5) (.rla a) 1 ∧
    Names (0x40 + 8 * a.number + 6) (.rrl a) 1 ∧ Names (0x40 + 8 * a.number + 7) (.rll a) 1) ∧
  NamesAB 0x6 .ld ∧
  (∀ a b, Names (0x70 + 8 * a.number + b.number) (.st a b) (if 4 ≤ b.number then 2 else 1)) ∧
  (∀ (a : Reg) (b : OperandB) (s : State), b.number < 4 → ∃ t, exec (.st a b) s = .next t ∧
    t.run = .halted (.illegalOperand (BitVec.ofNat 8 (0x70 + 8 * a.number + b.number)))) ∧
  NamesAB 0x8 .sbc ∧ NamesAB 0x9 .adc ∧ NamesAB 0xA .sub ∧ NamesAB 0xB .add ∧
  NamesAB 0xC .eor ∧ NamesAB 0xD .or ∧ NamesAB 0xE .and ∧ NamesAB 0xF .cmp

/-- A few words written out bit by bit from the formats of R56 decode to what they stand for. The operand forms are R69's, with
raw 2 and raw 3 kept apart as the model's two terms (log entry 7), and that mode 5 is RLA is R83's number (decision D12; log
entry 10). -/
def Obligations.SampleWordsDecode : Prop :=
  decodeBytes [0b01100010#8, 0x42#8] = .ok (⟨.ld .acc .imm, some 0x42#8⟩, []) ∧
  decodeBytes [0b01101111#8, 0x12#8, 0x0C#8] = .ok (⟨.ld .ix (.mem .dataIdx), some 0x12#8⟩, [0x0C#8]) ∧
  decodeBytes [0b01110101#8, 0x10#8] = .ok (⟨.st .acc (.mem .dataAbs), some 0x10#8⟩, []) ∧
  decodeBytes [0b10101000#8] = .ok (⟨.sub .ix .acc, none⟩, []) ∧
  decodeBytes [0b10110011#8, 0x01#8] = .ok (⟨.add .acc .immFolded, some 0x01#8⟩, []) ∧
  decodeBytes [0b01001101#8] = .ok (⟨.rla .ix, none⟩, []) ∧
  decodeBytes [0b00111001#8, 0x20#8] = .ok (⟨.bbc9, some 0x20#8⟩, []) ∧
  decodeBytes [0b00001010#8, 0x10#8] = .ok (⟨.jal, some 0x10#8⟩, []) ∧
  decodeBytes [0b00011000#8] = .ok (⟨.inp, none⟩, []) ∧
  decodeBytes [0b00101000#8] = .ok (⟨.scf, none⟩, []) ∧
  decodeBytes [0b01010101#8] = .error (.unknownInstruction 0x55#8)

/-! ## The step -/

/-- From Running, a step whose byte at `pc` decodes to `i` is `i` executed with `pc` one past that byte (R51). -/
def Obligations.StepExecutesTheDecodedInstruction : Prop :=
  ∀ (s : State) (i : Instr), s.run = .running → s.pc < 512 → decodeOpcode (s.mem.read s.pc) = .ok i →
    step s = exec i (s.setPc (s.pc + 1))

/-- R59, R108: an unknown byte halts the machine with `pc` one past it and nothing else changed but the run state and the
diagnostic port. The record and its opcode address are R112's (decision D23), in the model's own field (log entry 3). -/
def Obligations.UnknownOpcodeHaltsOnePastTheByte : Prop :=
  ∀ s : State, s.run = .running → s.pc < 512 →
    (s.mem.read s.pc = 0x08#8 ∨ s.mem.read s.pc = 0x09#8 ∨
      (0x50 ≤ (s.mem.read s.pc).toNat ∧ (s.mem.read s.pc).toNat ≤ 0x5F)) →
    step s = .next { s with
      pc := s.pc + 1
      run := .halted (.unknownInstruction (s.mem.read s.pc))
      diag := s.diag ++ [⟨.unknownInstruction (s.mem.read s.pc), s.pc⟩] }

/-- R109: a fetched ST byte with raw operand B 0 to 3 halts the machine before any second-word fetch (decision D11). -/
def Obligations.StoreToRegisterOrImmediateHalts : Prop :=
  ∀ s : State, s.run = .running → s.pc < 512 →
    ((0x70 ≤ (s.mem.read s.pc).toNat ∧ (s.mem.read s.pc).toNat ≤ 0x73) ∨
      (0x78 ≤ (s.mem.read s.pc).toNat ∧ (s.mem.read s.pc).toNat ≤ 0x7B)) →
    step s = .next { s with
      pc := s.pc + 1
      run := .halted (.illegalOperand (s.mem.read s.pc))
      diag := s.diag ++ [⟨.illegalOperand (s.mem.read s.pc), s.pc⟩] }

/-- R110: AddressOutOfRange is raised by an opcode fetch past the array, by a second-word fetch past it, and by an indexed-data
effective address past it, a source operand's and a store's alike; selectors 4, 5 and 6 never leave the array (by R35's
formula the largest is 0x1FF; R110 prints 0x1FE, log entry 5). `pc` keeps the advances made, and nothing else is written
(decisions D1, D3). The record is in the model's own field; its address is D23's, but for a failed opcode fetch, where the
spec states none and `pc` is the model's (log entry 3, DEDUCED). -/
def Obligations.AddressOutOfRangeIsRaisedInThreePlaces : Prop :=
  (∀ s : State, s.run = .running → 512 ≤ s.pc →
    step s = .next { s with
      run := .halted (.addressOutOfRange s.pc)
      diag := s.diag ++ [⟨.addressOutOfRange s.pc, s.pc⟩] }) ∧
  (∀ (s : State) (i : Instr), s.run = .running → s.pc = 511 → decodeOpcode (s.mem.read s.pc) = .ok i → i.length = 2 →
    step s = .next { s with
      pc := 512
      run := .halted (.addressOutOfRange 512)
      diag := s.diag ++ [⟨.addressOutOfRange 512, 511⟩] }) ∧
  (∀ (s : State) (i : Instr) (e : Nat), s.run = .running → s.pc + 1 < 512 → decodeOpcode (s.mem.read s.pc) = .ok i →
    i.operand = some (.mem .dataIdx) → e = 0x100 + s.ix.toNat + (s.mem.read (s.pc + 1)).toNat → 0x200 ≤ e →
    step s = .next { s with
      pc := s.pc + 2
      run := .halted (.addressOutOfRange e)
      diag := s.diag ++ [⟨.addressOutOfRange e, s.pc⟩] }) ∧
  (∀ (m : MemMode) (x d : Byte), m ≠ .dataIdx → effAddr m x d ≤ 0x1FF)

/-- R106: a halted machine has no step, and no host action takes it out of Halted (decision D14; log entry 6).
That a host action may meet a halted machine at all is the model's choice (log entry 8). -/
def Obligations.NoStepFromHalted : Prop :=
  ∀ (s : State) (r : HaltReason), s.run = .halted r →
    step s = .refused (.noStepFromHalted r) ∧ ∀ a : HostAction, (hostAct a s).run = .halted r

/-- R105, R113: every step from Running answers a next state; it continues, or halts with the first cause met in the order
opcode fetch, decoder, illegal operand, second-word fetch, effective address, and HLT. -/
def Obligations.StepHaltsOnTheFirstCauseOnly : Prop :=
  ∀ s : State, s.run = .running →
    ∃ t, step s = .next t ∧ t.run = RunState.ofHalt (stepHalt s) ∧
      (t.answer = .halts ↔ (stepHalt s).isSome)

/-- R111: at an error halt the state is the state before the instruction, but for the run state, the diagnostic port and
`pc`, which carries exactly the fetches made (decision D26). -/
def Obligations.ErrorHaltsArePrecise : Prop :=
  ∀ (s t : State) (r : HaltReason), step s = .next t → t.run = .halted r → r.isError = true →
    t = { s with pc := t.pc, run := .halted r, diag := t.diag } ∧
    (∀ ir, r = .unknownInstruction ir ∨ r = .illegalOperand ir → t.pc = s.pc + 1) ∧
    (∀ e, r = .addressOutOfRange e →
      t.pc = if s.pc < 511 then s.pc + 2 else if s.pc = 511 then 512 else s.pc)

/-- R112: a step that ends in an error halt emits exactly one record, with its reason and the address of the opcode byte; any
other step, HLT's among them, emits none. The field and, for a failed opcode fetch, the address `pc` are the model's (log
entry 3, DESIGN CHOICE and DEDUCED); otherwise the address is D23's. -/
def Obligations.DiagnosticExactlyAtAnErrorHalt : Prop :=
  ∀ s t : State, step s = .next t →
    t.diag =
      match t.run with
      | .running => s.diag
      | .halted r => if r.isError then s.diag ++ [⟨r, s.pc⟩] else s.diag

/-- Every instruction, executed in any state, answers a next state: none ends in a fault or a refusal. This holds by the
model's choice that an error halt, which R127.2 calls a fault of the run, is a next state with `run` = Halted(reason)
(log entry 6). -/
def Obligations.EveryInstructionAnswersANextState : Prop :=
  ∀ (i : Instr) (s : State), ∃ t, exec i s = .next t

/-- R19, R61: after a step that continues, `pc` is where the instruction transfers control to, or else the address after it,
one or two bytes on as its length says. -/
def Obligations.ProgramCounterAfterAStep : Prop :=
  ∀ (s t : State) (i : Instr), s.pc < 512 → decodeOpcode (s.mem.read s.pc) = .ok i → step s = .next t →
    t.run = .running → t.pc = (transferTarget i s).getD (s.pc + i.length)

/-! ## The invariant -/

/-- Every step keeps the invariant, from every state that meets it. Canonical memory and the port's records are the model's
form (log entries 2 and 3; the address after a failed opcode fetch is DEDUCED). -/
def Obligations.StepKeepsTheInvariant : Prop := ∀ s t : State, s.Inv → step s = .next t → t.Inv

/-- The reset state meets the invariant. -/
def Obligations.ResetMeetsTheInvariant : Prop := State.reset.Inv

/-- Every launch state that a loader may hand over meets the invariant, and loading any image gives one of them, wherever
its entry point. Two clauses are the model's choice (log entry 4, DESIGN CHOICE): an image's cells outside the array are
dropped, and an entry may be any valid index, 256 to 511 too, where R121.2 asks for a program-space instruction. -/
def Obligations.LaunchStatesMeetTheInvariant : Prop :=
  (∀ s : State, s.isLaunch = true → s.Inv) ∧
  (∀ (image : List Host.Cell) (entry : Nat), entry < 512 → (State.launch image entry).isLaunch = true)

/-- Every state that a run reaches, from any launch state and under any host schedule, meets the invariant. The form of a
schedule, and that its host actions may also come before the first step and after a halt, is the model's (log entry 8); so is
that a launch state may have its `pc` in the data bank (log entry 4). -/
def Obligations.EveryScheduleKeepsTheInvariant : Prop :=
  ∀ (events : List HostEvent) (s t : State), s.isLaunch = true → runSchedule events s = .next t → t.Inv

/-! ## The host -/

/-- R46: Produce and Consume write the buffers alone, Produce whether or not a value was pending; Inspect writes nothing
(decision D16). That they do the same to a halted machine, and before the first step, is the model's choice (log entry 8). -/
def Obligations.HostActionsWriteOnlyTheBuffers : Prop :=
  ∀ (s : State) (v : Byte),
    hostAct (.produce v) s = { s with ibuf := { value := v, ready := true } } ∧
    hostAct .consume s = { s with obuf := { value := consumedValue s, ready := false } } ∧
    consumedValue s = s.obuf.value ∧ hostAct .inspect s = s

/-- R103: `BBC 4, self` leaves the whole state as it was while no input is pending, and goes on once the host has produced;
`BBC 12, self` waits in the same way while output is pending, and goes on once the host has consumed it. -/
def Obligations.PollingLoopsWaitForTheHost : Prop :=
  (∀ (s : State) (v : Byte), s.run = .running → s.pc < 256 → s.mem.read s.pc = 0x34#8 →
    s.mem.read (s.pc + 1) = BitVec.ofNat 8 s.pc → s.ibuf.ready = false →
    step s = .next s ∧ step (hostAct (.produce v) s) = .next ((hostAct (.produce v) s).setPc (s.pc + 2))) ∧
  (∀ s : State, s.run = .running → s.pc < 256 → s.mem.read s.pc = 0x3C#8 →
    s.mem.read (s.pc + 1) = BitVec.ofNat 8 s.pc → s.obuf.ready = true →
    step s = .next s ∧ step (hostAct .consume s) = .next ((hostAct .consume s).setPc (s.pc + 2)))

/-! ## Memory, operands, load and store -/

/-- Memory has one form: two canonical memories whose every cell reads alike are equal as data. -/
def Obligations.CanonicalMemoriesWithEqualContentsAreEqual : Prop :=
  ∀ m n : Memory, m.wf = true → n.wf = true → (∀ a, m.read a = n.read a) → m = n

/-- R35: the effective address under each selector, IX added without reduction (decision D4), and its one range check
(decision D3). -/
def Obligations.EffectiveAddressFormula : Prop :=
  ∀ (op : Nat) (d : Byte) (s : State),
    ea op .progAbs d s = .ok (0x000 + d.toNat) s ∧
    ea op .dataAbs d s = .ok (0x100 + d.toNat) s ∧
    ea op .progIdx d s = .ok (0x000 + (s.ix.toNat + d.toNat)) s ∧
    ea op .dataIdx d s =
      (if 0x100 + (s.ix.toNat + d.toNat) < 512 then .ok (0x100 + (s.ix.toNat + d.toNat)) s
       else .raised (raise op (.addressOutOfRange (0x100 + (s.ix.toNat + d.toNat))) s))

/-- R9: `x[0]` is ACC and `x[1]` is IX; a write of either changes that register alone. -/
def Obligations.RegisterSelection : Prop :=
  ∀ (s : State) (v : Byte),
    s.reg .acc = s.acc ∧ s.reg .ix = s.ix ∧
    s.setReg .acc v = { s with acc := v } ∧ s.setReg .ix v = { s with ix := v }

/-- R71: LD writes the operand's value to `x[A]`, under every addressing mode, and no flag (decisions D9, D10). -/
def Obligations.LoadWritesTheOperandValue : Prop :=
  OperandRule 0x6 .ld (fun a v s => s.setReg a v)

/-- R72: ST writes `x[A]` to the cell its operand names and to no other; every other field but `pc` is unchanged. It raises
IllegalOperand for the register and immediate forms, and AddressOutOfRange where the address cannot be formed (decisions D3,
D9, D11). -/
def Obligations.StoreWritesOnlyTheAddressedCell : Prop :=
  ∀ (a : Reg) (b : OperandB) (s : State),
    decodeOpcode (BitVec.ofNat 8 (0x70 + 8 * a.number + b.number)) = .ok (.st a b) ∧
    (∀ m, b = .mem m → s.operandError b = none → s.mem.wf = true →
      ∃ t, exec (.st a b) s = .next t ∧
        t.mem.read (s.memAddr m) = s.reg a ∧
        (∀ x, x ≠ s.memAddr m → t.mem.read x = s.mem.read x) ∧
        t = { s with pc := s.pc + 1, mem := t.mem }) ∧
    (∀ m e, b = .mem m → s.operandError b = some e → exec (.st a b) s = .next (s.operandHalt e)) ∧
    (b.number < 4 →
      exec (.st a b) s =
        .next (s.haltedWith (.illegalOperand (BitVec.ofNat 8 (0x70 + 8 * a.number + b.number))) s.pc))

/-- R72: what ST put at an absolute-data address is what a later LD of the same address reads, whatever registers the two
name. `s'` is any later state with the same memory that executes a LD with the same second word. -/
def Obligations.StoreThenLoadReturnsTheValue : Prop :=
  ∀ (a a' : Reg) (s : State), s.mem.wf = true → s.pc < 512 →
    ∃ t, exec (.st a (.mem .dataAbs)) s = .next t ∧
      ∀ s' : State, s'.mem = t.mem → s'.pc < 512 → s'.secondWord = s.secondWord →
        ∃ u, exec (.ld a' (.mem .dataAbs)) s' = .next u ∧ u.reg a' = s.reg a

/-- R48, R124: a store into the cell right after the ST changes the instruction that the next step executes. -/
def Obligations.StoredByteIsTheNextInstruction : Prop :=
  ∀ (s : State) (a : Reg) (m : MemMode) (i : Instr), s.run = .running → s.mem.wf = true → s.pc + 2 < 512 →
    decodeOpcode (s.mem.read s.pc) = .ok (.st a (.mem m)) →
    (s.setPc (s.pc + 1)).memAddr m = s.pc + 2 → decodeOpcode (s.reg a) = .ok i →
    ∃ t, step s = .next t ∧ t.pc = s.pc + 2 ∧ step t = exec i (t.setPc (s.pc + 3))

/-! ## The ALU -/

/-- R74: ADD, with VF under each value of ADD_VF_RULE (decision D6; log entry 1); CF is neither added nor written. -/
def Obligations.AddIgnoresAndKeepsCarry : Prop :=
  OperandRule 0xB .add (fun a y s =>
    let x := s.reg a
    let ov := signedOverflow (x.toInt + y.toInt)
    let vf := match s.cfg.addVfRule with
      | .carryOrOverflow => decide (256 ≤ x.toNat + y.toNat) || ov
      | .overflow => ov
      | .cfinOrOverflow => s.flags.cf || ov
    (s.setFlags (resultFlags s.flags.cf vf ((x.toNat + y.toNat) % 256))).setReg a (BitVec.ofNat 8 (x.toNat + y.toNat)))

/-- R75: ADC; VF is the exact signed overflow of a + b + CF, and CF the unsigned carry. -/
def Obligations.AdcAddsTheCarry : Prop :=
  OperandRule 0x9 .adc (fun a y s =>
    let x := s.reg a
    let n := x.toNat + y.toNat + s.flags.cf.toNat
    (s.setFlags (resultFlags (decide (256 ≤ n)) (signedOverflow (x.toInt + y.toInt + s.flags.cf.toNat)) (n % 256))).setReg a
      (BitVec.ofNat 8 n))

/-- R76: SUB; the result is (a - b) mod 256, CF is not written, and VF is the signed overflow but for b = 0x80
(decision D7). -/
def Obligations.SubKeepsCarry : Prop :=
  OperandRule 0xA .sub (fun a y s =>
    (s.setFlags (subtractionFlags s.flags (s.reg a) y)).setReg a (s.reg a - y))

/-- R77: SBC; the result is (a - b - CF) mod 256, with CF and VF as the rule's corner cases give them. -/
def Obligations.SbcSubtractsTheBorrow : Prop :=
  OperandRule 0x8 .sbc (fun a y s =>
    let x := s.reg a
    let cf := s.flags.cf
    let n := (x.toNat + 512 - y.toNat - cf.toNat) % 256
    let ov := signedOverflow (x.toInt - y.toInt - cf.toNat)
    (s.setFlags (resultFlags (sbcCf x y cf) (ov ^^ sbcVfInverted x y cf) n)).setReg a (BitVec.ofNat 8 n))

/-- R78: CMP writes the flags of SUB and no register. -/
def Obligations.CmpWritesOnlyFlags : Prop :=
  OperandRule 0xF .cmp (fun a y s => s.setFlags (subtractionFlags s.flags (s.reg a) y))

/-- R79: AND. The operand is resolved as `OperandRule` says (decisions D1, D3, D4, D23, D26; log entry 3). -/
def Obligations.AndKeepsCarryAndClearsOverflow : Prop :=
  OperandRule 0xE .and (fun a y s =>
    (s.setFlags (logicResultFlags s.flags (s.reg a &&& y))).setReg a (s.reg a &&& y))

/-- R80: OR. The operand is resolved as `OperandRule` says (decisions D1, D3, D4, D23, D26; log entry 3). -/
def Obligations.OrKeepsCarryAndClearsOverflow : Prop :=
  OperandRule 0xD .or (fun a y s =>
    (s.setFlags (logicResultFlags s.flags (s.reg a ||| y))).setReg a (s.reg a ||| y))

/-- R81: EOR. The operand is resolved as `OperandRule` says (decisions D1, D3, D4, D23, D26; log entry 3). -/
def Obligations.EorKeepsCarryAndClearsOverflow : Prop :=
  OperandRule 0xC .eor (fun a y s =>
    (s.setFlags (logicResultFlags s.flags (s.reg a ^^^ y))).setReg a (s.reg a ^^^ y))

/-! ## The shifter -/

/-- R84, R86, R88, R90: SRA pushes the sign bit, SRL 0, RRA the incoming CF, RRL the byte's own bit 0. That their mode numbers
are 0, 2, 4 and 6 is R83's (decision D12; log entry 10). -/
def Obligations.RightShiftsMoveEveryBitDownOne : Prop :=
  RightRule 0 .sra (fun x _ => x.getLsbD 7) ∧ RightRule 2 .srl (fun _ _ => false) ∧
  RightRule 4 .rra (fun _ cf => cf) ∧ RightRule 6 .rrl (fun x _ => x.getLsbD 0)

/-- R85, R87, R89, R91: SLA and SLL push 0, RLA the incoming CF, RLL the byte's own bit 7; VF follows the sign change for SLA
and RLA alone. That their mode numbers are 1, 3, 5 and 7 is R83's (decision D12; log entry 10). -/
def Obligations.LeftShiftsMoveEveryBitUpOne : Prop :=
  LeftRule 1 .sla (fun _ _ => false) true ∧ LeftRule 3 .sll (fun _ _ => false) false ∧
  LeftRule 5 .rla (fun _ cf => cf) true ∧ LeftRule 7 .rll (fun x _ => x.getLsbD 7) false

/-- R92, R88, R89: eight plain rotations give the byte back, and nine rotations through carry give back the byte and CF. -/
def Obligations.FullRotationsRestoreTheByte : Prop :=
  ∀ (a : Reg) (s : State),
    (∃ t, repeatExec (.rll a) 8 s = some t ∧ t.reg a = s.reg a) ∧
    (∃ t, repeatExec (.rrl a) 8 s = some t ∧ t.reg a = s.reg a) ∧
    (∃ t, repeatExec (.rra a) 9 s = some t ∧ t.reg a = s.reg a ∧ t.flags.cf = s.flags.cf) ∧
    (∃ t, repeatExec (.rla a) 9 s = some t ∧ t.reg a = s.reg a ∧ t.flags.cf = s.flags.cf)

/-! ## Branches, control transfer, flags, I/O -/

/-- R93, R94: the sixteen branches, each with its opcode byte and its condition. No flag is written (decision D9); a target
fetch out of range halts (R11, R110; decision D1) with its record (R112; decision D23; log entry 3). -/
def Obligations.BranchesTestTheirConditions : Prop :=
  BranchRule 0x30 .bbc0 (fun _ => true) ∧
  BranchRule 0x31 .bbc1 (fun s => !s.flags.zf) ∧
  BranchRule 0x32 .bbc2 (fun s => !s.flags.nf) ∧
  BranchRule 0x33 .bbc3 (fun s => !(s.flags.nf || s.flags.zf)) ∧
  BranchRule 0x34 .bbc4 (fun s => !s.ibuf.ready) ∧
  BranchRule 0x35 .bbc5 (fun s => !s.flags.cf) ∧
  BranchRule 0x36 .bbc6 (fun s => !(s.flags.vf != s.flags.nf)) ∧
  BranchRule 0x37 .bbc7 (fun s => !((s.flags.vf != s.flags.nf) || s.flags.zf)) ∧
  BranchRule 0x38 .bbc8 (fun s => s.flags.vf) ∧
  BranchRule 0x39 .bbc9 (fun s => s.flags.zf) ∧
  BranchRule 0x3A .bbc10 (fun s => s.flags.nf) ∧
  BranchRule 0x3B .bbc11 (fun s => s.flags.nf || s.flags.zf) ∧
  BranchRule 0x3C .bbc12 (fun s => s.obuf.ready) ∧
  BranchRule 0x3D .bbc13 (fun s => s.flags.cf) ∧
  BranchRule 0x3E .bbc14 (fun s => s.flags.vf != s.flags.nf) ∧
  BranchRule 0x3F .bbc15 (fun s => (s.flags.vf != s.flags.nf) || s.flags.zf)

/-- R95: JAL links the return address modulo 256 in ACC (decision D5) and jumps to its second word; nothing else changes
(decision D9). A target fetch out of range halts (decision D1; log entry 3). -/
def Obligations.JalLinksThroughAcc : Prop :=
  Names 0x0A .jal 2 ∧
  ∀ s : State,
    (s.pc < 512 → exec .jal s = .next { s with
      acc := BitVec.ofNat 8 ((s.pc + 1) % 256), pc := (s.mem.read s.pc).toNat }) ∧
    (512 ≤ s.pc → exec .jal s = .next (s.haltedWith (.addressOutOfRange s.pc) s.pc))

/-- R96: JR jumps to ACC, which is a program-bank address; nothing else changes (decision D9). -/
def Obligations.JrJumpsToAcc : Prop :=
  Names 0x0B .jr 1 ∧ ∀ s : State, s.acc.toNat < 256 ∧ exec .jr s = .next { s with pc := s.acc.toNat }

/-- R96 with R95: a JAL whose target holds a JR comes back to the JAL's address + 2, modulo 256 (decision D5). -/
def Obligations.JalThenJrReturns : Prop :=
  ∀ s : State, s.run = .running → s.pc + 1 < 512 → s.mem.read s.pc = 0x0A#8 →
    s.mem.read (s.mem.read (s.pc + 1)).toNat = 0x0B#8 →
    ∃ t u, step s = .next t ∧ step t = .next u ∧ u.pc = (s.pc + 2) % 256 ∧ u.run = .running

/-- R97: the eight NOP bytes do nothing but advance `pc`. -/
def Obligations.NopOnlyAdvances : Prop :=
  ∀ s : State, exec .nop s = .next s ∧
    (s.run = .running → s.pc < 512 → (s.mem.read s.pc).toNat < 8 → step s = .next { s with pc := s.pc + 1 })

/-- R98: the four HLT bytes (decision D28) halt with reason HLT, `pc` one past the byte, and no diagnostic; nothing else
changes. -/
def Obligations.HltHaltsWithoutADiagnostic : Prop :=
  ∀ s : State, exec .hlt s = .next { s with run := .halted .hlt } ∧
    (s.run = .running → s.pc < 512 → 0x0C ≤ (s.mem.read s.pc).toNat → (s.mem.read s.pc).toNat ≤ 0x0F →
      step s = .next { s with pc := s.pc + 1, run := .halted .hlt })

/-- R99, R100: RCF and SCF, under each of their eight bytes, write CF and no other flag; nothing else changes. -/
def Obligations.RcfAndScfWriteOnlyCarry : Prop :=
  (∀ n, n < 8 → Names (0x20 + n) .rcf 1 ∧ Names (0x28 + n) .scf 1) ∧
  ∀ s : State,
    exec .rcf s = .next { s with flags := { s.flags with cf := false } } ∧
    exec .scf s = .next { s with flags := { s.flags with cf := true } }

/-- R101: OUT, under each of its eight bytes, puts ACC in the output buffer and sets its ready bit, over a pending value too
(decision D17), and no flag (decision D9). -/
def Obligations.OutFillsTheOutputBuffer : Prop :=
  (∀ n, n < 8 → Names (0x10 + n) .out 1) ∧
  ∀ s : State, exec .out s = .next { s with obuf := { value := s.acc, ready := true } }

/-- R102: IN, under each of its eight bytes, puts the input value in ACC and clears the ready bit, with no value pending
too (decision D17), and no flag (decision D9); the value stays. -/
def Obligations.InReadsTheInputBuffer : Prop :=
  (∀ n, n < 8 → Names (0x18 + n) .inp 1) ∧
  ∀ s : State, exec .inp s = .next { s with acc := s.ibuf.value, ibuf := { value := s.ibuf.value, ready := false } }

/-! ## Frames over all instructions -/

/-- R37: an instruction other than ST leaves every byte of memory as it was, and none changes the parameters. -/
def Obligations.OnlyStoresWriteMemory : Prop :=
  ∀ (i : Instr) (s t : State), exec i s = .next t →
    t.cfg = s.cfg ∧ ((∀ a b, i ≠ .st a b) → ∀ x, t.mem.read x = s.mem.read x)

/-- R15, R16: a register changes only under the instructions those rules list as writing it. -/
def Obligations.RegistersChangeOnlyUnderTheirWriters : Prop :=
  ∀ (i : Instr) (s t : State) (r : Reg), exec i s = .next t → i.writesReg r = false → t.reg r = s.reg r

/-- R21: each flag changes only under the instructions its column lists, and under none that halts with an error; the
columns' constants (VF 0 of the logic and of every shift but SLA and RLA, CF of RCF and SCF) are as listed. -/
def Obligations.FlagsChangeOnlyAsTabled : Prop :=
  ∀ (i : Instr) (s t : State), exec i s = .next t →
    (i.writesFlags.cf = false → t.flags.cf = s.flags.cf) ∧
    (i.writesFlags.vf = false → t.flags.vf = s.flags.vf) ∧
    (i.writesFlags.nf = false → t.flags.nf = s.flags.nf) ∧
    (i.writesFlags.zf = false → t.flags.zf = s.flags.zf) ∧
    (∀ r, executeHalt i s = some r → t.flags = s.flags) ∧
    (executeHalt i s = none →
      ((∃ a b, i = .and a b ∨ i = .or a b ∨ i = .eor a b) → t.flags.vf = false) ∧
      ((∃ a, i = .sra a ∨ i = .srl a ∨ i = .sll a ∨ i = .rra a ∨ i = .rrl a ∨ i = .rll a) → t.flags.vf = false) ∧
      (i = .rcf → t.flags.cf = false) ∧ (i = .scf → t.flags.cf = true))

/-- R23, R24: no instruction writes the input value; only IN touches the input's ready bit, and only to clear it; only OUT
touches the output buffer; none clears the output's ready bit. -/
def Obligations.BuffersChangeOnlyUnderInAndOut : Prop :=
  ∀ (i : Instr) (s t : State), exec i s = .next t →
    t.ibuf.value = s.ibuf.value ∧ (t.ibuf.ready = true → s.ibuf.ready = true) ∧
    (i ≠ .inp → t.ibuf = s.ibuf) ∧ (i ≠ .out → t.obuf = s.obuf) ∧
    (s.obuf.ready = true → t.obuf.ready = true)

/-- R37: the machine never reads the output value. Two states that differ in it alone take the same step, and still differ
in it alone, or, where the step was OUT, not at all. -/
def Obligations.OutputValueIsNeverRead : Prop :=
  ∀ (s t : State) (v : Byte), step s = .next t →
    step { s with obuf := { s.obuf with value := v } } = .next t ∨
    step { s with obuf := { s.obuf with value := v } } = .next { t with obuf := { t.obuf with value := v } }

/-- R32: the default launch state with nothing loaded, field by field; every cell reads 0x00 (decision D15; log entry 2), no
diagnostic has been emitted (log entry 3), and ADD_VF_RULE has the default of R6 (decision D6; log entry 1). -/
def Obligations.ResetIsTheDefaultLaunchState : Prop :=
  State.reset.acc = 0x00#8 ∧ State.reset.ix = 0x00#8 ∧ State.reset.pc = 0x000 ∧
  State.reset.flags = { cf := false, vf := false, nf := false, zf := false } ∧
  State.reset.ibuf = { value := 0x00#8, ready := false } ∧ State.reset.obuf = { value := 0x00#8, ready := false } ∧
  State.reset.run = .running ∧ (∀ a, State.reset.mem.read a = 0x00#8) ∧
  State.reset.diag = [] ∧ State.reset.cfg.addVfRule = .carryOrOverflow

/-! ## Further whole-machine rules -/

/-- R123: there is no delay slot. A taken BBC, a JAL or a JR that stands whole in the array completes with `pc` at its target,
a program-bank address, and the next step executes the instruction there. -/
def Obligations.TransfersHaveNoDelaySlot : Prop :=
  ∀ (s : State) (i : Instr) (n : Nat), s.run = .running → s.pc + i.length ≤ 512 →
    decodeOpcode (s.mem.read s.pc) = .ok i → transferTarget i s = some n →
    n < 256 ∧ ∃ t, step s = .next t ∧ t.run = .running ∧ t.pc = n ∧
      ∀ j, decodeOpcode (s.mem.read n) = .ok j → step t = exec j (t.setPc (n + 1))

/-- R42: the side effects of the accesses to the I/O buffers: IN reads the input value and clears its ready bit, OUT writes the
output value and sets its ready bit, and a BBC, under every condition, leaves both buffers as they were. That nothing else
changes, no flag among it, is decision D9; that IN and OUT do so with no input, or with output pending, is D17 (R93, R101,
R102; log entry 10). -/
def Obligations.IoAccessesHaveExactlyTheirSideEffects : Prop :=
  ∀ s : State,
    exec .inp s = .next { s with acc := s.ibuf.value, ibuf := { value := s.ibuf.value, ready := false } } ∧
    exec .out s = .next { s with obuf := { value := s.acc, ready := true } } ∧
    ∀ i ∈ branches, ∃ t, exec i s = .next t ∧ t.ibuf = s.ibuf ∧ t.obuf = s.obuf ∧ (s.pc < 512 → t = { s with pc := t.pc })
end

