-- ==== Sys2Proof/Laws/Memory.lean ====
section
/-! SUPPORT. The laws of the memory array: reading after writing, and that every operation keeps the canonical form. -/

namespace Sys2Proof.Machine

theorem Memory.above_of_le {a b : Nat} (h : a ≤ b) : ∀ {m : Memory}, Memory.above b m = true → Memory.above a m = true
  | [], _ => rfl
  | (c, v) :: rest, hm => by
    simp only [Memory.above, Bool.and_eq_true, decide_eq_true_eq] at hm ⊢
    exact ⟨by omega, Memory.above_of_le h hm.2⟩

/-- A cell that no listed index reaches reads as an unlisted one. -/
theorem Memory.read_of_above {a : Nat} : ∀ {m : Memory}, Memory.above a m = true → ∀ {x}, x ≤ a → m.read x = Memory.unlisted
  | [], _, _, _ => rfl
  | (b, v) :: rest, hm, x, hx => by
    simp only [Memory.above, Bool.and_eq_true, decide_eq_true_eq] at hm
    simp only [Memory.read, show b ≠ x by omega, if_false]
    exact Memory.read_of_above hm.2 hx

theorem Memory.wf_cons {a : Nat} {v : Byte} {rest : Memory} :
    Memory.wf ((a, v) :: rest) = true ↔
      a < 512 ∧ v ≠ Memory.unlisted ∧ Memory.above a rest = true ∧ Memory.wf rest = true := by
  simp only [Memory.wf, Bool.and_eq_true, decide_eq_true_eq, and_assoc]

/-- A write leaves every other cell alone. -/
theorem Memory.read_write_of_ne {a x : Nat} (h : x ≠ a) (v : Byte) : ∀ m : Memory, (m.write a v).read x = m.read x
  | [] => by
    unfold Memory.write
    split <;> simp [Memory.read, Ne.symm h]
  | (b, w) :: rest => by
    unfold Memory.write
    split
    · split <;> simp [Memory.read, Ne.symm h]
    · split
      · subst_vars
        split <;> simp [Memory.read, Ne.symm h]
      · simp only [Memory.read]
        split
        · rfl
        · exact Memory.read_write_of_ne h v rest

/-- Reading a cell after writing it gives the byte written. -/
theorem Memory.read_write_same (a : Nat) (v : Byte) : ∀ {m : Memory}, m.wf = true → (m.write a v).read a = v
  | [], _ => by
    unfold Memory.write
    split
    · subst_vars; rfl
    · simp [Memory.read]
  | (b, w) :: rest, h => by
    rw [Memory.wf_cons] at h
    unfold Memory.write
    split
    · rename_i hab
      split
      · rename_i hv
        simp only [Memory.read, show b ≠ a by omega, if_false]
        rw [Memory.read_of_above h.2.2.1 (Nat.le_of_lt hab), hv]
      · simp [Memory.read]
    · split
      · rename_i hab
        split
        · rename_i hv
          rw [Memory.read_of_above h.2.2.1 (Nat.le_of_eq hab), hv]
        · simp [Memory.read]
      · simp only [Memory.read, show b ≠ a by omega, if_false]
        exact Memory.read_write_same a v h.2.2.2

theorem Memory.read_write {m : Memory} (h : m.wf = true) (a x : Nat) (v : Byte) :
    (m.write a v).read x = if x = a then v else m.read x := by
  split
  · subst_vars; exact Memory.read_write_same _ _ h
  · exact Memory.read_write_of_ne ‹_› _ _

theorem Memory.above_write {k a : Nat} (hk : k < a) (v : Byte) :
    ∀ {m : Memory}, Memory.above k m = true → Memory.above k (m.write a v) = true
  | [], _ => by
    unfold Memory.write
    split <;> simp [Memory.above, hk]
  | (b, w) :: rest, h => by
    have h' := h
    simp only [Memory.above, Bool.and_eq_true, decide_eq_true_eq] at h
    unfold Memory.write
    split
    · split <;> simp [Memory.above, hk, h.1, h.2]
    · split
      · split <;> simp [Memory.above, hk, h.2]
      · simp only [Memory.above, Bool.and_eq_true, decide_eq_true_eq]
        exact ⟨h.1, Memory.above_write hk v h.2⟩

/-- A write inside the array keeps the canonical form. -/
theorem Memory.wf_write {a : Nat} (ha : a < 512) (v : Byte) : ∀ {m : Memory}, m.wf = true → (m.write a v).wf = true
  | [], _ => by
    unfold Memory.write
    split
    · rfl
    · rw [Memory.wf_cons]; exact ⟨ha, ‹_›, rfl, rfl⟩
  | (b, w) :: rest, h => by
    have h' := h
    rw [Memory.wf_cons] at h
    unfold Memory.write
    split
    · rename_i hab
      split
      · exact h'
      · rw [Memory.wf_cons]
        refine ⟨ha, ‹_›, ?_, h'⟩
        simp only [Memory.above, Bool.and_eq_true, decide_eq_true_eq]
        exact ⟨hab, Memory.above_of_le (Nat.le_of_lt hab) h.2.2.1⟩
    · split
      · rename_i hab
        split
        · exact h.2.2.2
        · rw [Memory.wf_cons]
          exact ⟨ha, ‹_›, hab ▸ h.2.2.1, h.2.2.2⟩
      · rw [Memory.wf_cons]
        exact ⟨h.1, h.2.1, Memory.above_write (by omega) v h.2.2.1, Memory.wf_write ha v h.2.2.2⟩

/-- Placing an instruction keeps the canonical form. -/
theorem placeInstruction_mem_wf {s : State} (h : s.mem.wf = true) (w : Nat) : (placeInstruction s w).mem.wf = true := by
  unfold placeInstruction
  dsimp only
  split <;> split <;> simp_all [Memory.wf_write]

/-- Loading an image keeps the canonical form. -/
theorem State.load_mem_wf : ∀ (image : List Host.Cell) {s : State}, s.mem.wf = true → (s.load image).mem.wf = true
  | [], _, h => h
  | (a, v) :: rest, s, h => by
    unfold State.load
    apply State.load_mem_wf rest
    split
    · exact Memory.wf_write ‹_› v h
    · exact h

theorem State.reset_mem_wf : State.reset.mem.wf = true := rfl

end Sys2Proof.Machine
end

