-- ==== Sys2Proof/Laws/State.lean ====
section
/-! SUPPORT. One lemma per field per update of the state, so that no proof unfolds a record update. -/

namespace Sys2Proof.Machine

variable (s : State)

/-! ## Registers -/

@[simp] theorem State.reg_acc : s.reg .acc = s.acc := rfl
@[simp] theorem State.reg_ix : s.reg .ix = s.ix := rfl
theorem State.setReg_acc (v : Byte) : s.setReg .acc v = { s with acc := v } := rfl
theorem State.setReg_ix (v : Byte) : s.setReg .ix v = { s with ix := v } := rfl

@[simp] theorem State.reg_setReg_same (a : Reg) (v : Byte) : (s.setReg a v).reg a = v := by cases a <;> rfl

theorem State.reg_setReg_of_ne {a b : Reg} (h : a ≠ b) (v : Byte) : (s.setReg a v).reg b = s.reg b := by
  cases a <;> cases b <;> first | rfl | exact absurd rfl h

@[simp] theorem State.setReg_acc_acc (v : Byte) : (s.setReg .acc v).acc = v := rfl
@[simp] theorem State.setReg_acc_ix (v : Byte) : (s.setReg .acc v).ix = s.ix := rfl
@[simp] theorem State.setReg_ix_acc (v : Byte) : (s.setReg .ix v).acc = s.acc := rfl
@[simp] theorem State.setReg_ix_ix (v : Byte) : (s.setReg .ix v).ix = v := rfl

@[simp] theorem State.setReg_pc (a : Reg) (v : Byte) : (s.setReg a v).pc = s.pc := by cases a <;> rfl
@[simp] theorem State.setReg_mem (a : Reg) (v : Byte) : (s.setReg a v).mem = s.mem := by cases a <;> rfl
@[simp] theorem State.setReg_flags (a : Reg) (v : Byte) : (s.setReg a v).flags = s.flags := by cases a <;> rfl
@[simp] theorem State.setReg_ibuf (a : Reg) (v : Byte) : (s.setReg a v).ibuf = s.ibuf := by cases a <;> rfl
@[simp] theorem State.setReg_obuf (a : Reg) (v : Byte) : (s.setReg a v).obuf = s.obuf := by cases a <;> rfl
@[simp] theorem State.setReg_run (a : Reg) (v : Byte) : (s.setReg a v).run = s.run := by cases a <;> rfl
@[simp] theorem State.setReg_diag (a : Reg) (v : Byte) : (s.setReg a v).diag = s.diag := by cases a <;> rfl
@[simp] theorem State.setReg_cfg (a : Reg) (v : Byte) : (s.setReg a v).cfg = s.cfg := by cases a <;> rfl

/-! ## The program counter -/

@[simp] theorem State.setPc_acc (n : Nat) : (s.setPc n).acc = s.acc := rfl
@[simp] theorem State.setPc_ix (n : Nat) : (s.setPc n).ix = s.ix := rfl
@[simp] theorem State.setPc_pc (n : Nat) : (s.setPc n).pc = n := rfl
@[simp] theorem State.setPc_mem (n : Nat) : (s.setPc n).mem = s.mem := rfl
@[simp] theorem State.setPc_flags (n : Nat) : (s.setPc n).flags = s.flags := rfl
@[simp] theorem State.setPc_ibuf (n : Nat) : (s.setPc n).ibuf = s.ibuf := rfl
@[simp] theorem State.setPc_obuf (n : Nat) : (s.setPc n).obuf = s.obuf := rfl
@[simp] theorem State.setPc_run (n : Nat) : (s.setPc n).run = s.run := rfl
@[simp] theorem State.setPc_diag (n : Nat) : (s.setPc n).diag = s.diag := rfl
@[simp] theorem State.setPc_cfg (n : Nat) : (s.setPc n).cfg = s.cfg := rfl
@[simp] theorem State.setPc_reg (n : Nat) (a : Reg) : (s.setPc n).reg a = s.reg a := by cases a <;> rfl
@[simp] theorem State.setPc_self : s.setPc s.pc = s := rfl
@[simp] theorem State.setPc_setPc (m n : Nat) : (s.setPc m).setPc n = s.setPc n := rfl

/-! ## Flags -/

@[simp] theorem State.setFlags_acc (g : Flags) : (s.setFlags g).acc = s.acc := rfl
@[simp] theorem State.setFlags_ix (g : Flags) : (s.setFlags g).ix = s.ix := rfl
@[simp] theorem State.setFlags_pc (g : Flags) : (s.setFlags g).pc = s.pc := rfl
@[simp] theorem State.setFlags_mem (g : Flags) : (s.setFlags g).mem = s.mem := rfl
@[simp] theorem State.setFlags_flags (g : Flags) : (s.setFlags g).flags = g := rfl
@[simp] theorem State.setFlags_ibuf (g : Flags) : (s.setFlags g).ibuf = s.ibuf := rfl
@[simp] theorem State.setFlags_obuf (g : Flags) : (s.setFlags g).obuf = s.obuf := rfl
@[simp] theorem State.setFlags_run (g : Flags) : (s.setFlags g).run = s.run := rfl
@[simp] theorem State.setFlags_diag (g : Flags) : (s.setFlags g).diag = s.diag := rfl
@[simp] theorem State.setFlags_cfg (g : Flags) : (s.setFlags g).cfg = s.cfg := rfl
@[simp] theorem State.setFlags_reg (g : Flags) (a : Reg) : (s.setFlags g).reg a = s.reg a := by cases a <;> rfl
@[simp] theorem State.setCf_cf (c : Bool) : (s.setCf c).flags.cf = c := rfl
@[simp] theorem State.setCf_vf (c : Bool) : (s.setCf c).flags.vf = s.flags.vf := rfl
@[simp] theorem State.setCf_nf (c : Bool) : (s.setCf c).flags.nf = s.flags.nf := rfl
@[simp] theorem State.setCf_zf (c : Bool) : (s.setCf c).flags.zf = s.flags.zf := rfl
@[simp] theorem State.setCf_acc (c : Bool) : (s.setCf c).acc = s.acc := rfl
@[simp] theorem State.setCf_ix (c : Bool) : (s.setCf c).ix = s.ix := rfl
@[simp] theorem State.setCf_pc (c : Bool) : (s.setCf c).pc = s.pc := rfl
@[simp] theorem State.setCf_mem (c : Bool) : (s.setCf c).mem = s.mem := rfl
@[simp] theorem State.setCf_ibuf (c : Bool) : (s.setCf c).ibuf = s.ibuf := rfl
@[simp] theorem State.setCf_obuf (c : Bool) : (s.setCf c).obuf = s.obuf := rfl
@[simp] theorem State.setCf_run (c : Bool) : (s.setCf c).run = s.run := rfl
@[simp] theorem State.setCf_diag (c : Bool) : (s.setCf c).diag = s.diag := rfl
@[simp] theorem State.setCf_cfg (c : Bool) : (s.setCf c).cfg = s.cfg := rfl

/-! ## Raising an error halt -/

@[simp] theorem raise_acc (op : Nat) (e : HaltReason) : (raise op e s).acc = s.acc := rfl
@[simp] theorem raise_ix (op : Nat) (e : HaltReason) : (raise op e s).ix = s.ix := rfl
@[simp] theorem raise_pc (op : Nat) (e : HaltReason) : (raise op e s).pc = s.pc := rfl
@[simp] theorem raise_mem (op : Nat) (e : HaltReason) : (raise op e s).mem = s.mem := rfl
@[simp] theorem raise_flags (op : Nat) (e : HaltReason) : (raise op e s).flags = s.flags := rfl
@[simp] theorem raise_ibuf (op : Nat) (e : HaltReason) : (raise op e s).ibuf = s.ibuf := rfl
@[simp] theorem raise_obuf (op : Nat) (e : HaltReason) : (raise op e s).obuf = s.obuf := rfl
@[simp] theorem raise_run (op : Nat) (e : HaltReason) : (raise op e s).run = .halted e := rfl
@[simp] theorem raise_diag (op : Nat) (e : HaltReason) : (raise op e s).diag = s.diag ++ [⟨e, op⟩] := rfl
@[simp] theorem raise_cfg (op : Nat) (e : HaltReason) : (raise op e s).cfg = s.cfg := rfl
@[simp] theorem raise_reg (op : Nat) (e : HaltReason) (a : Reg) : (raise op e s).reg a = s.reg a := by cases a <;> rfl

/-! ## The halted state of a statement -/

@[simp] theorem State.haltedWith_acc (r : HaltReason) (n : Nat) : (s.haltedWith r n).acc = s.acc := rfl
@[simp] theorem State.haltedWith_ix (r : HaltReason) (n : Nat) : (s.haltedWith r n).ix = s.ix := rfl
@[simp] theorem State.haltedWith_pc (r : HaltReason) (n : Nat) : (s.haltedWith r n).pc = n := rfl
@[simp] theorem State.haltedWith_mem (r : HaltReason) (n : Nat) : (s.haltedWith r n).mem = s.mem := rfl
@[simp] theorem State.haltedWith_flags (r : HaltReason) (n : Nat) : (s.haltedWith r n).flags = s.flags := rfl
@[simp] theorem State.haltedWith_ibuf (r : HaltReason) (n : Nat) : (s.haltedWith r n).ibuf = s.ibuf := rfl
@[simp] theorem State.haltedWith_obuf (r : HaltReason) (n : Nat) : (s.haltedWith r n).obuf = s.obuf := rfl
@[simp] theorem State.haltedWith_run (r : HaltReason) (n : Nat) : (s.haltedWith r n).run = .halted r := rfl
@[simp] theorem State.haltedWith_diag (r : HaltReason) (n : Nat) : (s.haltedWith r n).diag = s.diag ++ [⟨r, s.pc - 1⟩] := rfl
@[simp] theorem State.haltedWith_cfg (r : HaltReason) (n : Nat) : (s.haltedWith r n).cfg = s.cfg := rfl

/-! ## Host actions -/

@[simp] theorem hostAct_produce_acc (v : Byte) : (hostAct (.produce v) s).acc = s.acc := rfl
@[simp] theorem hostAct_produce_ix (v : Byte) : (hostAct (.produce v) s).ix = s.ix := rfl
@[simp] theorem hostAct_produce_pc (v : Byte) : (hostAct (.produce v) s).pc = s.pc := rfl
@[simp] theorem hostAct_produce_mem (v : Byte) : (hostAct (.produce v) s).mem = s.mem := rfl
@[simp] theorem hostAct_produce_flags (v : Byte) : (hostAct (.produce v) s).flags = s.flags := rfl
@[simp] theorem hostAct_produce_ibuf (v : Byte) : (hostAct (.produce v) s).ibuf = ⟨v, true⟩ := rfl
@[simp] theorem hostAct_produce_obuf (v : Byte) : (hostAct (.produce v) s).obuf = s.obuf := rfl
@[simp] theorem hostAct_produce_run (v : Byte) : (hostAct (.produce v) s).run = s.run := rfl
@[simp] theorem hostAct_produce_diag (v : Byte) : (hostAct (.produce v) s).diag = s.diag := rfl
@[simp] theorem hostAct_produce_cfg (v : Byte) : (hostAct (.produce v) s).cfg = s.cfg := rfl
@[simp] theorem hostAct_consume_acc : (hostAct .consume s).acc = s.acc := rfl
@[simp] theorem hostAct_consume_ix : (hostAct .consume s).ix = s.ix := rfl
@[simp] theorem hostAct_consume_pc : (hostAct .consume s).pc = s.pc := rfl
@[simp] theorem hostAct_consume_mem : (hostAct .consume s).mem = s.mem := rfl
@[simp] theorem hostAct_consume_flags : (hostAct .consume s).flags = s.flags := rfl
@[simp] theorem hostAct_consume_ibuf : (hostAct .consume s).ibuf = s.ibuf := rfl
@[simp] theorem hostAct_consume_obuf : (hostAct .consume s).obuf = ⟨s.obuf.value, false⟩ := rfl
@[simp] theorem hostAct_consume_run : (hostAct .consume s).run = s.run := rfl
@[simp] theorem hostAct_consume_diag : (hostAct .consume s).diag = s.diag := rfl
@[simp] theorem hostAct_consume_cfg : (hostAct .consume s).cfg = s.cfg := rfl
@[simp] theorem hostAct_inspect : hostAct .inspect s = s := rfl

end Sys2Proof.Machine
end

