-- ==== Sys2Proof/Laws/Operands.lean ====
section
/-! SUPPORT. What each shared operation can do, said once: fetching, the effective address, the operand resolver, the
store's destination, and the shapes that the families of instructions share. Later proofs cite these and do not unfold
the operations. -/

namespace Sys2Proof.Machine

variable {s : State}

theorem fetchByte_of_lt (op : Nat) (h : s.pc < 512) : fetchByte op s = .ok s.secondWord (s.setPc (s.pc + 1)) := by
  unfold fetchByte
  rw [if_neg (by omega)]
  rfl

theorem fetchByte_of_ge (op : Nat) (h : ¬ s.pc < 512) :
    fetchByte op s = .raised (raise op (.addressOutOfRange s.pc) s) := by
  unfold fetchByte
  rw [if_pos (by omega)]

@[simp] theorem Resolved.ok_bind {α β : Type} (v : α) (t : State) (k : α → State → Resolved β) :
    (Resolved.ok v t).bind k = k v t := rfl

@[simp] theorem Resolved.raised_bind {α β : Type} (t : State) (k : α → State → Resolved β) :
    (Resolved.raised t).bind k = .raised t := rfl

@[simp] theorem Resolved.ok_andThen {α : Type} (v : α) (t : State) (k : α → State → Result) :
    (Resolved.ok v t).andThen k = k v t := rfl

@[simp] theorem Resolved.raised_andThen {α : Type} (t : State) (k : α → State → Result) :
    (Resolved.raised t).andThen k = .next t := rfl

/-- Every effective address is at most 0x100 + 0xFF + 0xFF (R35). -/
theorem effAddr_le (m : MemMode) (x d : Byte) : effAddr m x d ≤ 766 := by
  have := x.isLt
  have := d.isLt
  cases m <;> simp only [effAddr, bankBase, bankOffset] <;> omega

theorem effAddr_progAbs (x d : Byte) : effAddr .progAbs x d = d.toNat := Nat.zero_add _
theorem effAddr_dataAbs (x d : Byte) : effAddr .dataAbs x d = 0x100 + d.toNat := rfl
theorem effAddr_progIdx (x d : Byte) : effAddr .progIdx x d = x.toNat + d.toNat := Nat.zero_add _
theorem effAddr_dataIdx (x d : Byte) : effAddr .dataIdx x d = 0x100 + (x.toNat + d.toNat) := rfl

/-- Selectors 4, 5 and 6 never leave the array (R35; log entry 5 on the bound R110 prints). -/
theorem effAddr_lt_of_ne {m : MemMode} (h : m ≠ .dataIdx) (x d : Byte) : effAddr m x d < 0x200 := by
  have := x.isLt
  have := d.isLt
  cases m with
  | progAbs => rw [effAddr_progAbs]; omega
  | dataAbs => rw [effAddr_dataAbs]; omega
  | progIdx => rw [effAddr_progIdx]; omega
  | dataIdx => exact absurd rfl h

theorem ea_of_lt (op : Nat) {m : MemMode} {d : Byte} (h : effAddr m s.ix d < 512) :
    ea op m d s = .ok (effAddr m s.ix d) s := if_neg (Nat.not_le.mpr h)

theorem ea_of_ge (op : Nat) {m : MemMode} {d : Byte} (h : ¬ effAddr m s.ix d < 512) :
    ea op m d s = .raised (raise op (.addressOutOfRange (effAddr m s.ix d)) s) := if_pos (Nat.not_lt.mp h)

theorem memRead_of_lt (op : Nat) {e : Nat} (h : e < 512) : memRead op e s = .ok (s.mem.read e) s :=
  if_neg (Nat.not_le.mpr h)

theorem memWrite_of_lt (op : Nat) {e : Nat} (v : Byte) (h : e < 512) :
    memWrite op e v s = .ok () { s with mem := s.mem.write e v } := if_neg (Nat.not_le.mpr h)

theorem raise_opcodeAddr_setPc (e : HaltReason) (n : Nat) : raise s.opcodeAddr e (s.setPc n) = s.haltedWith e n := rfl

theorem raise_opcodeAddr (e : HaltReason) : raise s.opcodeAddr e s = s.haltedWith e s.pc := rfl

/-! ### The operand's error, case by case -/

theorem operandError_mem_of_lt {m : MemMode} (h : s.pc < 512) (h2 : s.memAddr m < 512) :
    s.operandError (.mem m) = none := by simp [State.operandError, h, h2]

theorem operandError_mem_of_ge {m : MemMode} (h : s.pc < 512) (h2 : ¬ s.memAddr m < 512) :
    s.operandError (.mem m) = some (s.memAddr m) := by simp [State.operandError, h, h2]

theorem operandError_mem_of_pc {m : MemMode} (h : ¬ s.pc < 512) : s.operandError (.mem m) = some s.pc := by
  simp [State.operandError, h]

theorem operandHalt_of_lt {e : Nat} (h : s.pc < 512) :
    s.operandHalt e = s.haltedWith (.addressOutOfRange e) (s.pc + 1) := by simp [State.operandHalt, h]

theorem operandHalt_of_ge {e : Nat} (h : ¬ s.pc < 512) : s.operandHalt e = s.haltedWith (.addressOutOfRange e) s.pc := by
  simp [State.operandHalt, h]

/-- The second word followed by its effective address, as both resolvers begin a memory mode. -/
theorem fetch_ea (m : MemMode) :
    ((fetchByte s.opcodeAddr s).bind fun d s1 => ea s.opcodeAddr m d s1) =
      match s.operandError (.mem m) with
      | none => .ok (s.memAddr m) (s.setPc (s.pc + 1))
      | some e => .raised (s.operandHalt e) := by
  by_cases h : s.pc < 512
  · rw [fetchByte_of_lt _ h, Resolved.ok_bind]
    by_cases h2 : s.memAddr m < 512
    · rw [operandError_mem_of_lt h h2]
      exact ea_of_lt (s := s.setPc (s.pc + 1)) _ h2
    · rw [operandError_mem_of_ge h h2, ea_of_ge (s := s.setPc (s.pc + 1)) _ h2]
      simp only [raise_opcodeAddr_setPc, operandHalt_of_lt h]
      rfl
  · rw [fetchByte_of_ge _ h, operandError_mem_of_pc h]
    simp only [Resolved.raised_bind, raise_opcodeAddr, operandHalt_of_ge h]

/-- The operand resolver, whole: its value and the advanced `pc`, or the halted state. -/
theorem resolveB_eq (b : OperandB) :
    resolveB b.fold s =
      match s.operandError b with
      | none => .ok (s.operandValue b) (s.setPc (s.operandPc b))
      | some e => .raised (s.operandHalt e) := by
  cases b with
  | acc => rfl
  | ix => rfl
  | imm =>
    by_cases h : s.pc < 512
    · simp only [OperandB.fold, resolveB, fetchByte_of_lt _ h, State.operandError, h, if_true]; rfl
    · simp only [OperandB.fold, resolveB, fetchByte_of_ge _ h, State.operandError, h, if_false, raise_opcodeAddr,
        operandHalt_of_ge h]
  | immFolded =>
    by_cases h : s.pc < 512
    · simp only [OperandB.fold, resolveB, fetchByte_of_lt _ h, State.operandError, h, if_true]; rfl
    · simp only [OperandB.fold, resolveB, fetchByte_of_ge _ h, State.operandError, h, if_false, raise_opcodeAddr,
        operandHalt_of_ge h]
  | mem m =>
    have hb : resolveB (OperandB.fold (.mem m)) s =
        ((fetchByte s.opcodeAddr s).bind fun d s1 => ea s.opcodeAddr m d s1).bind
          fun e s2 => memRead s.opcodeAddr e s2 := by
      simp only [OperandB.fold, resolveB]
      cases fetchByte s.opcodeAddr s <;> rfl
    rw [hb, fetch_ea]
    by_cases h : s.pc < 512
    · by_cases h2 : s.memAddr m < 512
      · rw [operandError_mem_of_lt h h2]
        exact memRead_of_lt (s := s.setPc (s.pc + 1)) _ h2
      · rw [operandError_mem_of_ge h h2]; rfl
    · rw [operandError_mem_of_pc h]; rfl

/-- The store's destination, for a memory mode. -/
theorem resolveDest_mem (ir : Byte) (m : MemMode) :
    resolveDest ir (.mem m) s =
      match s.operandError (.mem m) with
      | none => .ok (s.memAddr m) (s.setPc (s.pc + 1))
      | some e => .raised (s.operandHalt e) := fetch_ea m

/-- The store's destination, for selectors 0, 1 and 2 (R70). -/
theorem resolveDest_illegal (ir : Byte) {b : OperandB} (h : b.isStoreDest = false) :
    resolveDest ir b.fold s = .raised (s.haltedWith (.illegalOperand ir) s.pc) := by
  cases b with
  | mem m => exact absurd h (by simp [OperandB.isStoreDest])
  | _ => rfl

/-- Every instruction that reads both operands, whole. -/
theorem withOperands_eq (a : Reg) (b : OperandB) (k : Byte → Byte → State → State) :
    withOperands a b k s =
      match s.operandError b with
      | none => .next (k (s.reg a) (s.operandValue b) (s.setPc (s.operandPc b)))
      | some e => .next (s.operandHalt e) := by
  unfold withOperands
  rw [resolveB_eq]
  cases s.operandError b <;> rfl

theorem execLd_eq (a : Reg) (b : OperandB) :
    execLd a b s =
      match s.operandError b with
      | none => .next ((s.setPc (s.operandPc b)).setReg a (s.operandValue b))
      | some e => .next (s.operandHalt e) := by
  unfold execLd
  rw [resolveB_eq]
  cases s.operandError b <;> rfl

theorem execSt_mem_eq (a : Reg) (m : MemMode) :
    execSt a (.mem m) s =
      match s.operandError (.mem m) with
      | none => .next { s.setPc (s.pc + 1) with mem := s.mem.write (s.memAddr m) (s.reg a) }
      | some e => .next (s.operandHalt e) := by
  unfold execSt
  simp only [OperandB.fold]
  rw [resolveDest_mem]
  by_cases h : s.pc < 512
  · by_cases h2 : s.memAddr m < 512
    · rw [operandError_mem_of_lt h h2]
      simp only [Resolved.ok_andThen, memWrite_of_lt _ _ h2, State.setPc_mem]
    · rw [operandError_mem_of_ge h h2]; rfl
  · rw [operandError_mem_of_pc h]; rfl

theorem execSt_illegal_eq (a : Reg) {b : OperandB} (h : b.isStoreDest = false) :
    execSt a b s = .next (s.haltedWith (.illegalOperand (opcodeByte (.st a b))) s.pc) := by
  unfold execSt
  rw [resolveDest_illegal _ h]
  rfl

theorem branchIf_of_lt (taken : Bool) (h : s.pc < 512) :
    branchIf taken s = .next (s.setPc (if taken then s.secondWord.toNat else s.pc + 1)) := by
  unfold branchIf
  rw [fetchByte_of_lt _ h]
  cases taken <;> rfl

theorem branchIf_of_ge (taken : Bool) (h : ¬ s.pc < 512) :
    branchIf taken s = .next (s.haltedWith (.addressOutOfRange s.pc) s.pc) := by
  unfold branchIf
  rw [fetchByte_of_ge _ h]
  rfl

theorem execJal_of_lt (h : s.pc < 512) :
    execJal s = .next ((s.setReg .acc (BitVec.ofNat 8 (s.pc + 1))).setPc s.secondWord.toNat) := by
  unfold execJal
  rw [fetchByte_of_lt _ h]
  rfl

theorem execJal_of_ge (h : ¬ s.pc < 512) : execJal s = .next (s.haltedWith (.addressOutOfRange s.pc) s.pc) := by
  unfold execJal
  rw [fetchByte_of_ge _ h]
  rfl

theorem shiftReg_eq (f : Byte → Bool → ShiftOut) (a : Reg) :
    shiftReg f a s =
      .next ((s.setFlags (shiftFlags (f (s.reg a) s.flags.cf))).setReg a (f (s.reg a) s.flags.cf).r) := rfl

/-- `u` differs from `t` at most in the two registers and the flags. -/
def OnlyRegsAndFlags (t u : State) : Prop := u = { t with acc := u.acc, ix := u.ix, flags := u.flags }

theorem onlyRegsAndFlags_setFlags (t : State) (f : Flags) : OnlyRegsAndFlags t (t.setFlags f) := rfl

theorem onlyRegsAndFlags_setReg (t : State) (f : Flags) (a : Reg) (v : Byte) :
    OnlyRegsAndFlags t ((t.setFlags f).setReg a v) := by cases a <;> rfl

/-! ### The ALU's instructions are `withOperands` over an effect on the registers and the flags alone -/

theorem execSbc_shape (a : Reg) (b : OperandB) :
    ∃ k, (∀ s, execSbc a b s = withOperands a b k s) ∧ ∀ x y t, OnlyRegsAndFlags t (k x y t) :=
  ⟨_, fun _ => rfl, fun _ _ _ => onlyRegsAndFlags_setReg _ _ _ _⟩

theorem execAdc_shape (a : Reg) (b : OperandB) :
    ∃ k, (∀ s, execAdc a b s = withOperands a b k s) ∧ ∀ x y t, OnlyRegsAndFlags t (k x y t) :=
  ⟨_, fun _ => rfl, fun _ _ _ => onlyRegsAndFlags_setReg _ _ _ _⟩

theorem execSub_shape (a : Reg) (b : OperandB) :
    ∃ k, (∀ s, execSub a b s = withOperands a b k s) ∧ ∀ x y t, OnlyRegsAndFlags t (k x y t) :=
  ⟨_, fun _ => rfl, fun _ _ _ => onlyRegsAndFlags_setReg _ _ _ _⟩

theorem execAdd_shape (a : Reg) (b : OperandB) :
    ∃ k, (∀ s, execAdd a b s = withOperands a b k s) ∧ ∀ x y t, OnlyRegsAndFlags t (k x y t) :=
  ⟨_, fun _ => rfl, fun _ _ _ => onlyRegsAndFlags_setReg _ _ _ _⟩

theorem execEor_shape (a : Reg) (b : OperandB) :
    ∃ k, (∀ s, execEor a b s = withOperands a b k s) ∧ ∀ x y t, OnlyRegsAndFlags t (k x y t) :=
  ⟨_, fun _ => rfl, fun _ _ _ => onlyRegsAndFlags_setReg _ _ _ _⟩

theorem execOr_shape (a : Reg) (b : OperandB) :
    ∃ k, (∀ s, execOr a b s = withOperands a b k s) ∧ ∀ x y t, OnlyRegsAndFlags t (k x y t) :=
  ⟨_, fun _ => rfl, fun _ _ _ => onlyRegsAndFlags_setReg _ _ _ _⟩

theorem execAnd_shape (a : Reg) (b : OperandB) :
    ∃ k, (∀ s, execAnd a b s = withOperands a b k s) ∧ ∀ x y t, OnlyRegsAndFlags t (k x y t) :=
  ⟨_, fun _ => rfl, fun _ _ _ => onlyRegsAndFlags_setReg _ _ _ _⟩

theorem execCmp_shape (a : Reg) (b : OperandB) :
    ∃ k, (∀ s, execCmp a b s = withOperands a b k s) ∧ ∀ x y t, OnlyRegsAndFlags t (k x y t) :=
  ⟨_, fun _ => rfl, fun _ _ _ => onlyRegsAndFlags_setFlags _ _⟩

end Sys2Proof.Machine
end

