-- ==== Sys2Proof/Laws/Exec.lean ====
section
/-! SUPPORT. What executing an instruction, and a step, can do, said once each: every proof about all instructions starts
from `exec_cases` or `step_cases` and does not unfold `exec` or `step`. -/

namespace Sys2Proof.Machine

/-! ## Operand errors -/

theorem State.operandError_bounds {s : State} {b : OperandB} {e : Nat} (h : s.operandError b = some e) :
    512 ≤ e ∧ (s.pc ≤ 512 → e ≤ 766) := by
  cases b with
  | acc => simp [State.operandError] at h
  | ix => simp [State.operandError] at h
  | imm => simp only [State.operandError] at h; split at h <;> simp at h; omega
  | immFolded => simp only [State.operandError] at h; split at h <;> simp at h; omega
  | mem m =>
    have hle : s.memAddr m ≤ 766 := effAddr_le m s.ix s.secondWord
    by_cases h1 : s.pc < 512
    · by_cases h2 : s.memAddr m < 512
      · simp [State.operandError, h1, h2] at h
      · simp only [State.operandError, h1, h2, if_true, if_false, Option.some.injEq] at h
        omega
    · simp only [State.operandError, h1, if_false, Option.some.injEq] at h
      omega

/-- A memory operand that can be resolved names a cell of the array. -/
theorem State.memAddr_lt {s : State} {m : MemMode} (h : s.operandError (.mem m) = none) :
    s.pc < 512 ∧ s.memAddr m < 512 := by
  simp only [State.operandError] at h
  split at h
  · split at h
    · exact ⟨‹_›, ‹_›⟩
    · simp at h
  · simp at h

theorem State.operandPc_le (s : State) (b : OperandB) : s.operandPc b ≤ s.pc + 1 := by
  cases b <;> simp [State.operandPc]

theorem State.operandPc_le_512 {s : State} {b : OperandB} (hp : s.pc ≤ 512) (h : s.operandError b = none) :
    s.operandPc b ≤ 512 := by
  cases b with
  | acc => simpa [State.operandPc] using hp
  | ix => simpa [State.operandPc] using hp
  | imm => simp only [State.operandError] at h; split at h <;> simp_all [State.operandPc]
  | immFolded => simp only [State.operandError] at h; split at h <;> simp_all [State.operandPc]
  | mem m => have := (State.memAddr_lt h).1; simp only [State.operandPc]; omega

/-! ## Executing an instruction -/

/-- `i`, executed in `s`, ends in an error halt. -/
structure ErrorHalt (i : Instr) (s : State) (r : HaltReason) (n : Nat) : Prop where
  halts : executeHalt i s = some r
  isError : r.isError = true
  answer : exec i s = .next (s.haltedWith r n)
  pc_and_value : (∃ a b, i = .st a b ∧ b.isStoreDest = false ∧ r = .illegalOperand (opcodeByte i) ∧ n = s.pc) ∨
    (∃ e, r = .addressOutOfRange e ∧ (s.pc < 512 → n = s.pc + 1) ∧ (¬ s.pc < 512 → n = s.pc) ∧ 512 ≤ e ∧
      (s.pc ≤ 512 → e ≤ 766))

/-- `i`, executed in `s`, completes in `t`. -/
structure Completes (i : Instr) (s t : State) : Prop where
  noHalt : executeHalt i s = none
  answer : exec i s = .next t
  run : t.run = s.run
  diag : t.diag = s.diag
  cfg : t.cfg = s.cfg
  wf : s.mem.wf = true → t.mem.wf = true
  pc : s.pc ≤ 512 → t.pc ≤ 512

theorem errorHalt_of_operand {i : Instr} {s : State} {e : Nat} {b : OperandB} (hb : s.operandError b = some e)
    (hx : executeHalt i s = some (.addressOutOfRange e)) (ha : exec i s = .next (s.operandHalt e)) :
    ∃ r n, ErrorHalt i s r n :=
  ⟨_, _, hx, rfl, ha, .inr ⟨e, rfl, fun h => if_pos h, fun h => if_neg h, State.operandError_bounds hb⟩⟩

/-- Everything executing an instruction can do: an error halt, HLT's halt, or completion. -/
theorem exec_cases (i : Instr) (s : State) :
    (∃ r n, ErrorHalt i s r n) ∨ (i = .hlt ∧ exec i s = .next { s with run := .halted .hlt }) ∨
      ∃ t, Completes i s t := by
  have operand : ∀ (b : OperandB) (f : State), executeHalt i s = (s.operandError b).map .addressOutOfRange →
      (exec i s = match s.operandError b with
        | none => .next f
        | some e => .next (s.operandHalt e)) →
      f.run = s.run → f.diag = s.diag → f.cfg = s.cfg → f.mem = s.mem → f.pc = s.operandPc b →
      (∃ r n, ErrorHalt i s r n) ∨ (i = .hlt ∧ exec i s = .next { s with run := .halted .hlt }) ∨
        ∃ t, Completes i s t := by
    intro b f hx ha h1 h2 h3 h4 h5
    cases hb : s.operandError b with
    | some e => rw [hb] at hx ha; exact .inl (errorHalt_of_operand hb hx ha)
    | none =>
      rw [hb] at hx ha
      exact .inr (.inr ⟨f, hx, ha, h1, h2, h3, by rw [h4]; exact id, fun hp => h5 ▸ State.operandPc_le_512 hp hb⟩)
  have alu : ∀ (a : Reg) (b : OperandB) {m : State → Result},
      (∃ k, (∀ s, m s = withOperands a b k s) ∧ ∀ x y t, OnlyRegsAndFlags t (k x y t)) →
      executeHalt i s = (s.operandError b).map .addressOutOfRange → exec i s = m s →
      (∃ r n, ErrorHalt i s r n) ∨ (i = .hlt ∧ exec i s = .next { s with run := .halted .hlt }) ∨
        ∃ t, Completes i s t := by
    intro a b m hk hx ha
    obtain ⟨k, hk, hf⟩ := hk
    have h := hf (s.reg a) (s.operandValue b) (s.setPc (s.operandPc b))
    refine operand b _ hx (ha.trans ((hk s).trans (withOperands_eq a b k))) ?_ ?_ ?_ ?_ ?_ <;> rw [h] <;> rfl
  have target : ∀ f : State, (executeHalt i s = if s.pc < 512 then none else some (.addressOutOfRange s.pc)) →
      (s.pc < 512 → exec i s = .next f) →
      (¬ s.pc < 512 → exec i s = .next (s.haltedWith (.addressOutOfRange s.pc) s.pc)) →
      f.run = s.run → f.diag = s.diag → f.cfg = s.cfg → f.mem = s.mem → (s.pc < 512 → f.pc ≤ 512) →
      (∃ r n, ErrorHalt i s r n) ∨ (i = .hlt ∧ exec i s = .next { s with run := .halted .hlt }) ∨
        ∃ t, Completes i s t := by
    intro f hx h0 h0' h1 h2 h3 h4 h5
    by_cases h : s.pc < 512
    · rw [if_pos h] at hx
      exact .inr (.inr ⟨f, hx, h0 h, h1, h2, h3, by rw [h4]; exact id, fun _ => h5 h⟩)
    · rw [if_neg h] at hx
      exact .inl ⟨_, _, hx, rfl, h0' h, .inr ⟨_, rfl, fun h' => absurd h' h, fun _ => rfl, by omega, by omega⟩⟩
  have branch : ∀ c : Bool, (executeHalt i s = if s.pc < 512 then none else some (.addressOutOfRange s.pc)) →
      exec i s = branchIf c s →
      (∃ r n, ErrorHalt i s r n) ∨ (i = .hlt ∧ exec i s = .next { s with run := .halted .hlt }) ∨
        ∃ t, Completes i s t := by
    intro c hx ha
    refine target _ hx (fun h => ha.trans (branchIf_of_lt c h)) (fun h => ha.trans (branchIf_of_ge c h)) rfl rfl rfl rfl ?_
    intro h
    have := s.secondWord.isLt
    cases c <;> simp <;> omega
  have done : ∀ f : State, executeHalt i s = none → exec i s = .next f →
      f.run = s.run → f.diag = s.diag → f.cfg = s.cfg → f.mem = s.mem → (s.pc ≤ 512 → f.pc ≤ 512) →
      (∃ r n, ErrorHalt i s r n) ∨ (i = .hlt ∧ exec i s = .next { s with run := .halted .hlt }) ∨
        ∃ t, Completes i s t := by
    intro f hx ha h1 h2 h3 h4 h5
    exact .inr (.inr ⟨f, hx, ha, h1, h2, h3, by rw [h4]; exact id, h5⟩)
  cases i with
  | nop => exact done s rfl rfl rfl rfl rfl rfl id
  | jal =>
    refine target _ rfl execJal_of_lt execJal_of_ge rfl rfl rfl rfl (fun _ => ?_)
    have := s.secondWord.isLt
    simp; omega
  | jr => exact done _ rfl rfl rfl rfl rfl rfl (fun _ => by have := s.acc.isLt; simp; omega)
  | hlt => exact .inr (.inl ⟨rfl, rfl⟩)
  | out => exact done _ rfl rfl rfl rfl rfl rfl id
  | inp => exact done _ rfl rfl rfl rfl rfl rfl id
  | rcf => exact done _ rfl rfl rfl rfl rfl rfl id
  | scf => exact done _ rfl rfl rfl rfl rfl rfl id
  | sra a => exact done _ rfl rfl (by simp) (by simp) (by simp) (by simp) (by simp)
  | sla a => exact done _ rfl rfl (by simp) (by simp) (by simp) (by simp) (by simp)
  | srl a => exact done _ rfl rfl (by simp) (by simp) (by simp) (by simp) (by simp)
  | sll a => exact done _ rfl rfl (by simp) (by simp) (by simp) (by simp) (by simp)
  | rra a => exact done _ rfl rfl (by simp) (by simp) (by simp) (by simp) (by simp)
  | rla a => exact done _ rfl rfl (by simp) (by simp) (by simp) (by simp) (by simp)
  | rrl a => exact done _ rfl rfl (by simp) (by simp) (by simp) (by simp) (by simp)
  | rll a => exact done _ rfl rfl (by simp) (by simp) (by simp) (by simp) (by simp)
  | ld a b => exact operand b _ rfl (execLd_eq a b) (by simp) (by simp) (by simp) (by simp) (by simp)
  | sbc a b => exact alu a b (execSbc_shape a b) rfl rfl
  | adc a b => exact alu a b (execAdc_shape a b) rfl rfl
  | sub a b => exact alu a b (execSub_shape a b) rfl rfl
  | add a b => exact alu a b (execAdd_shape a b) rfl rfl
  | eor a b => exact alu a b (execEor_shape a b) rfl rfl
  | or a b => exact alu a b (execOr_shape a b) rfl rfl
  | and a b => exact alu a b (execAnd_shape a b) rfl rfl
  | cmp a b => exact alu a b (execCmp_shape a b) rfl rfl
  | st a b =>
    cases hd : b.isStoreDest with
    | false =>
      exact .inl ⟨_, _, by simp [executeHalt, hd], rfl, execSt_illegal_eq a hd, .inl ⟨a, b, rfl, hd, rfl, rfl⟩⟩
    | true =>
      cases b with
      | mem m =>
        cases hb : s.operandError (.mem m) with
        | some e =>
          refine .inl (errorHalt_of_operand hb (by simp [executeHalt, hd, hb]) ?_)
          have h := execSt_mem_eq (s := s) a m
          rw [hb] at h
          exact h
        | none =>
          have h := execSt_mem_eq (s := s) a m
          rw [hb] at h
          have hm := State.memAddr_lt hb
          exact .inr (.inr ⟨_, by simp [executeHalt, hd, hb], h, rfl, rfl, rfl, Memory.wf_write hm.2 _,
            fun _ => Nat.succ_le_of_lt hm.1⟩)
      | _ => simp [OperandB.isStoreDest] at hd
  | bbc0 => exact branch _ rfl rfl
  | bbc1 => exact branch _ rfl rfl
  | bbc2 => exact branch _ rfl rfl
  | bbc3 => exact branch _ rfl rfl
  | bbc4 => exact branch _ rfl rfl
  | bbc5 => exact branch _ rfl rfl
  | bbc6 => exact branch _ rfl rfl
  | bbc7 => exact branch _ rfl rfl
  | bbc8 => exact branch _ rfl rfl
  | bbc9 => exact branch _ rfl rfl
  | bbc10 => exact branch _ rfl rfl
  | bbc11 => exact branch _ rfl rfl
  | bbc12 => exact branch _ rfl rfl
  | bbc13 => exact branch _ rfl rfl
  | bbc14 => exact branch _ rfl rfl
  | bbc15 => exact branch _ rfl rfl

/-! ## The step -/

theorem fetchDecode_of_ok {s : State} {i : Instr} (h : s.pc < 512) (hd : decodeOpcode (s.mem.read s.pc) = .ok i) :
    fetchDecode s = .ok i (s.setPc (s.pc + 1)) := by
  simp only [fetchDecode, fetchByte_of_lt _ h, Resolved.ok_bind, State.secondWord, hd]

theorem fetchDecode_of_error {s : State} {e : DecodeError} (h : s.pc < 512)
    (hd : decodeOpcode (s.mem.read s.pc) = .error e) :
    fetchDecode s = .raised (raise s.pc (.unknownInstruction (s.mem.read s.pc)) (s.setPc (s.pc + 1))) := by
  simp only [fetchDecode, fetchByte_of_lt _ h, Resolved.ok_bind, State.secondWord, hd]

theorem fetchDecode_of_ge {s : State} (h : ¬ s.pc < 512) :
    fetchDecode s = .raised (raise s.pc (.addressOutOfRange s.pc) s) := by
  simp only [fetchDecode, fetchByte_of_ge _ h, Resolved.raised_bind]

/-- The decoder's only error names the byte (R57, R59). -/
theorem decodeOpcode_error {x : Byte} {e : DecodeError} (h : decodeOpcode x = .error e) : e = .unknownInstruction x := by
  unfold decodeOpcode decodeClass0 at h
  dsimp only at h
  split at h <;> (try split_ifs at h) <;> cases h <;> rfl

theorem step_of_running {s : State} (h : s.run = .running) : step s = (fetchDecode s).andThen exec := by
  simp [step, h]

/-- Everything a step that answers a next state can have done. -/
theorem step_cases {s t : State} (h : step s = .next t) :
    s.run = .running ∧
      ((¬ s.pc < 512 ∧ t = raise s.pc (.addressOutOfRange s.pc) s) ∨
        (s.pc < 512 ∧ (∃ e, decodeOpcode (s.mem.read s.pc) = .error e) ∧
          t = raise s.pc (.unknownInstruction (s.mem.read s.pc)) (s.setPc (s.pc + 1))) ∨
        ∃ i, s.pc < 512 ∧ decodeOpcode (s.mem.read s.pc) = .ok i ∧ exec i (s.setPc (s.pc + 1)) = .next t) := by
  cases hr : s.run with
  | halted r => simp [step, hr] at h
  | running =>
    rw [step_of_running hr] at h
    refine ⟨rfl, ?_⟩
    by_cases hp : s.pc < 512
    · cases hd : decodeOpcode (s.mem.read s.pc) with
      | error e =>
        rw [fetchDecode_of_error hp hd] at h
        exact .inr (.inl ⟨hp, ⟨e, rfl⟩, by simpa using h.symm⟩)
      | ok i =>
        rw [fetchDecode_of_ok hp hd] at h
        exact .inr (.inr ⟨i, hp, rfl, h⟩)
    · rw [fetchDecode_of_ge hp] at h
      exact .inl ⟨hp, by simpa using h.symm⟩

end Sys2Proof.Machine
end

