-- ==== Sys2Proof/Laws/Flags.lean ====
section
/-! SUPPORT. The flag derivations of R73 as arithmetic, for proofs that reason about sums with omega. -/

namespace Sys2Proof.Machine

theorem testBit7_eq (n : Nat) : n.testBit 7 = decide (128 ≤ n % 256) := by
  rw [Nat.testBit_eq_decide_div_mod_eq]
  exact decide_eq_decide.mpr (by omega)

theorem negOf_eq (n : Nat) : negOf n = decide (128 ≤ n % 256) := testBit7_eq n

/-- Bit 8 of a 9-bit sum. -/
theorem carryOut_eq {n : Nat} (h : n < 512) : carryOut n = decide (256 ≤ n) := by
  unfold carryOut
  rw [Nat.testBit_eq_decide_div_mod_eq]
  exact decide_eq_decide.mpr (by omega)

/-- `V(a, b, s)` as comparisons of the three low bytes with 128. -/
theorem overflowV_eq (a b s : Nat) :
    overflowV a b s =
      ((decide (128 ≤ a % 256) && decide (128 ≤ b % 256) && !decide (128 ≤ s % 256)) ||
        (!decide (128 ≤ a % 256) && !decide (128 ≤ b % 256) && decide (128 ≤ s % 256))) := by
  simp only [overflowV, testBit7_eq]

theorem neg8_eq {b : Nat} (h : b < 256) : neg8 b = if b = 0 then 0 else 256 - b := by
  unfold neg8
  split <;> omega

theorem neg8_lt (b : Nat) : neg8 b < 256 := Nat.mod_lt _ (by decide)

/-- Bit 7 of a byte, and its signed value, by comparison with 128. -/
theorem getLsbD7_eq (x : Byte) : x.getLsbD 7 = decide (128 ≤ x.toNat) := by
  have h : x.getLsbD 7 = x.toNat.testBit 7 := rfl
  rw [h, testBit7_eq, Nat.mod_eq_of_lt x.isLt]

theorem toInt_eq (x : Byte) : x.toInt = if x.toNat < 128 then (x.toNat : Int) else (x.toNat : Int) - 256 := by
  rw [BitVec.toInt_eq_toNat_cond]
  split <;> split <;> omega

end Sys2Proof.Machine
end

