-- ==== Sys2Proof/Laws/PerInstr.lean ====
section
/-! SUPPORT. Statements about an instruction as syntax, one lemma per constructor (LAWS.json names the families). -/

namespace Sys2Proof.Laws.RoundTrip

/-- The decoder reads back the opcode byte that the encoder writes (R57, R65). -/
def Statement (i : Instr) : Prop := decodeOpcode (opcodeByte i) = .ok i

theorem nop : Statement .nop := rfl
theorem jal : Statement .jal := rfl
theorem jr : Statement .jr := rfl
theorem hlt : Statement .hlt := rfl
theorem out : Statement .out := rfl
theorem inp : Statement .inp := rfl
theorem rcf : Statement .rcf := rfl
theorem scf : Statement .scf := rfl
theorem bbc0 : Statement .bbc0 := rfl
theorem bbc1 : Statement .bbc1 := rfl
theorem bbc2 : Statement .bbc2 := rfl
theorem bbc3 : Statement .bbc3 := rfl
theorem bbc4 : Statement .bbc4 := rfl
theorem bbc5 : Statement .bbc5 := rfl
theorem bbc6 : Statement .bbc6 := rfl
theorem bbc7 : Statement .bbc7 := rfl
theorem bbc8 : Statement .bbc8 := rfl
theorem bbc9 : Statement .bbc9 := rfl
theorem bbc10 : Statement .bbc10 := rfl
theorem bbc11 : Statement .bbc11 := rfl
theorem bbc12 : Statement .bbc12 := rfl
theorem bbc13 : Statement .bbc13 := rfl
theorem bbc14 : Statement .bbc14 := rfl
theorem bbc15 : Statement .bbc15 := rfl
theorem sra (a : Reg) : Statement (.sra a) := by cases a <;> rfl
theorem sla (a : Reg) : Statement (.sla a) := by cases a <;> rfl
theorem srl (a : Reg) : Statement (.srl a) := by cases a <;> rfl
theorem sll (a : Reg) : Statement (.sll a) := by cases a <;> rfl
theorem rra (a : Reg) : Statement (.rra a) := by cases a <;> rfl
theorem rla (a : Reg) : Statement (.rla a) := by cases a <;> rfl
theorem rrl (a : Reg) : Statement (.rrl a) := by cases a <;> rfl
theorem rll (a : Reg) : Statement (.rll a) := by cases a <;> rfl
theorem ld (a : Reg) (b : OperandB) : Statement (.ld a b) := by
  cases a <;> rcases b with _ | _ | _ | _ | m <;> first | rfl | (cases m <;> rfl)
theorem st (a : Reg) (b : OperandB) : Statement (.st a b) := by
  cases a <;> rcases b with _ | _ | _ | _ | m <;> first | rfl | (cases m <;> rfl)
theorem sbc (a : Reg) (b : OperandB) : Statement (.sbc a b) := by
  cases a <;> rcases b with _ | _ | _ | _ | m <;> first | rfl | (cases m <;> rfl)
theorem adc (a : Reg) (b : OperandB) : Statement (.adc a b) := by
  cases a <;> rcases b with _ | _ | _ | _ | m <;> first | rfl | (cases m <;> rfl)
theorem sub (a : Reg) (b : OperandB) : Statement (.sub a b) := by
  cases a <;> rcases b with _ | _ | _ | _ | m <;> first | rfl | (cases m <;> rfl)
theorem add (a : Reg) (b : OperandB) : Statement (.add a b) := by
  cases a <;> rcases b with _ | _ | _ | _ | m <;> first | rfl | (cases m <;> rfl)
theorem eor (a : Reg) (b : OperandB) : Statement (.eor a b) := by
  cases a <;> rcases b with _ | _ | _ | _ | m <;> first | rfl | (cases m <;> rfl)
theorem or (a : Reg) (b : OperandB) : Statement (.or a b) := by
  cases a <;> rcases b with _ | _ | _ | _ | m <;> first | rfl | (cases m <;> rfl)
theorem and (a : Reg) (b : OperandB) : Statement (.and a b) := by
  cases a <;> rcases b with _ | _ | _ | _ | m <;> first | rfl | (cases m <;> rfl)
theorem cmp (a : Reg) (b : OperandB) : Statement (.cmp a b) := by
  cases a <;> rcases b with _ | _ | _ | _ | m <;> first | rfl | (cases m <;> rfl)

end Sys2Proof.Laws.RoundTrip
end

