-- ==== Sys2Proof/Tests/Slice0.lean ====
section
/-! SUPPORT. The model's own tests. Every expected value is a row or a worked example of spec/95_test_vectors.md or an example
of the rule named, and each test runs one step; then the witnesses that the statements' hypotheses are met. -/

namespace Sys2Proof.Tests

open Sys2Proof.Machine Sys2Proof.Claims

/-! ## Helpers -/

/-- The cells that hold `bytes` from index `a` on. -/
def cells (a : Nat) : List Byte → List Host.Cell
  | [] => []
  | b :: rest => (a, b) :: cells (a + 1) rest

/-- The default launch state with `bytes` at `pc` and further cells loaded. -/
def boot (pc : Nat) (bytes : List Byte) (more : List Host.Cell := []) : State :=
  State.launch (cells pc bytes ++ more) pc

/-- The next state of an answer, if it is one. -/
def after : Result → Option State
  | .next s => some s
  | .fault _ => none
  | .refused _ => none

def ran (s : State) : Option State := after (step s)

/-- One step of the two bytes `op`, `d` at 0x00 with ACC = a and CF = cf: ACC, `pc` and the flags after it (§2.1). -/
def alu (op d a : Byte) (cf : Bool) : Option (Byte × Nat × Flags) :=
  (ran { boot 0 [op, d] with acc := a, flags := ⟨cf, false, false, false⟩ }).map fun t => (t.acc, t.pc, t.flags)

/-- One step of the byte `op` at 0x00 with ACC = x and CF = cf: ACC, `pc` and the flags after it (§2.2). -/
def shift (op x : Byte) (cf : Bool) : Option (Byte × Nat × Flags) := alu op 0x00#8 x cf

/-- One step of `op` 0x40 at 0x10, with the flags CF VF NF ZF and the two ready bits given: `pc` after it (§2.3). -/
def branch (op : Byte) (f : Flags) (inReady outReady : Bool) : Option Nat :=
  (ran { boot 0x10 [op, 0x40#8] with flags := f, ibuf := ⟨0x00#8, inReady⟩, obuf := ⟨0x00#8, outReady⟩ }).map (·.pc)

/-- The start state of §2.4, with the bytes at 0x00. -/
def ldst (ix : Byte) (bytes : List Byte) : State :=
  { boot 0 bytes [(0x12, 0x11#8), (0x112, 0x22#8), (0x32, 0x33#8), (0x132, 0x44#8), (0x110, 0x77#8), (0x1FF, 0xAB#8)] with
    acc := 0x99#8, ix := ix }

/-- ACC, IX and `pc` after one step from such a state. -/
def loaded (ix : Byte) (bytes : List Byte) : Option (Byte × Byte × Nat) :=
  (ran (ldst ix bytes)).map fun t => (t.acc, t.ix, t.pc)

/-! ## WellFormed: the ill-formed terms are refused (R64, R70) -/

theorem test_st_to_acc_is_ill_formed : (Instr.st .acc .acc).wellFormed = false := by decide
theorem test_st_to_ix_is_ill_formed : (Instr.st .ix .ix).wellFormed = false := by decide
theorem test_st_to_immediate_is_ill_formed : (Instr.st .acc .imm).wellFormed = false := by decide
theorem test_st_to_folded_immediate_is_ill_formed : (Instr.st .ix .immFolded).wellFormed = false := by decide
theorem test_memory_forms_are_well_formed :
    (Instr.st .acc (.mem .progAbs)).wellFormed = true ∧ (Instr.st .ix (.mem .dataIdx)).wellFormed = true ∧
      (Instr.ld .acc .imm).wellFormed = true ∧ Instr.hlt.wellFormed = true := by decide

/-! ## Decoding: one word or more per constructor, written out from the formats of R56 and the map of R58 -/

theorem test_decode_nop : decodeOpcode 0b00000101#8 = .ok .nop := rfl
theorem test_decode_jal : decodeOpcode 0b00001010#8 = .ok .jal := rfl
theorem test_decode_jr : decodeOpcode 0b00001011#8 = .ok .jr := rfl
theorem test_decode_hlt : decodeOpcode 0b00001110#8 = .ok .hlt := rfl
theorem test_decode_out : decodeOpcode 0b00010111#8 = .ok .out := rfl
theorem test_decode_inp : decodeOpcode 0b00011010#8 = .ok .inp := rfl
theorem test_decode_rcf : decodeOpcode 0b00100001#8 = .ok .rcf := rfl
theorem test_decode_scf : decodeOpcode 0b00101100#8 = .ok .scf := rfl
theorem test_decode_bbc0 : decodeOpcode 0b00110000#8 = .ok .bbc0 := rfl
theorem test_decode_bbc1 : decodeOpcode 0b00110001#8 = .ok .bbc1 := rfl
theorem test_decode_bbc2 : decodeOpcode 0b00110010#8 = .ok .bbc2 := rfl
theorem test_decode_bbc3 : decodeOpcode 0b00110011#8 = .ok .bbc3 := rfl
theorem test_decode_bbc4 : decodeOpcode 0b00110100#8 = .ok .bbc4 := rfl
theorem test_decode_bbc5 : decodeOpcode 0b00110101#8 = .ok .bbc5 := rfl
theorem test_decode_bbc6 : decodeOpcode 0b00110110#8 = .ok .bbc6 := rfl
theorem test_decode_bbc7 : decodeOpcode 0b00110111#8 = .ok .bbc7 := rfl
theorem test_decode_bbc8 : decodeOpcode 0b00111000#8 = .ok .bbc8 := rfl
theorem test_decode_bbc9 : decodeOpcode 0b00111001#8 = .ok .bbc9 := rfl
theorem test_decode_bbc10 : decodeOpcode 0b00111010#8 = .ok .bbc10 := rfl
theorem test_decode_bbc11 : decodeOpcode 0b00111011#8 = .ok .bbc11 := rfl
theorem test_decode_bbc12 : decodeOpcode 0b00111100#8 = .ok .bbc12 := rfl
theorem test_decode_bbc13 : decodeOpcode 0b00111101#8 = .ok .bbc13 := rfl
theorem test_decode_bbc14 : decodeOpcode 0b00111110#8 = .ok .bbc14 := rfl
theorem test_decode_bbc15 : decodeOpcode 0b00111111#8 = .ok .bbc15 := rfl
theorem test_decode_sra : decodeOpcode 0b01001000#8 = .ok (.sra .ix) := rfl
theorem test_decode_sla : decodeOpcode 0b01000001#8 = .ok (.sla .acc) := rfl
theorem test_decode_srl : decodeOpcode 0b01001010#8 = .ok (.srl .ix) := rfl
theorem test_decode_sll : decodeOpcode 0b01000011#8 = .ok (.sll .acc) := rfl
theorem test_decode_rra : decodeOpcode 0b01001100#8 = .ok (.rra .ix) := rfl
theorem test_decode_rla : decodeOpcode 0b01000101#8 = .ok (.rla .acc) := rfl
theorem test_decode_rrl : decodeOpcode 0b01001110#8 = .ok (.rrl .ix) := rfl
theorem test_decode_rll : decodeOpcode 0b01000111#8 = .ok (.rll .acc) := rfl
theorem test_decode_ld : decodeOpcode 0b01101111#8 = .ok (.ld .ix (.mem .dataIdx)) := rfl
theorem test_decode_st : decodeOpcode 0b01110101#8 = .ok (.st .acc (.mem .dataAbs)) := rfl
theorem test_decode_sbc : decodeOpcode 0b10001110#8 = .ok (.sbc .ix (.mem .progIdx)) := rfl
theorem test_decode_adc : decodeOpcode 0b10010100#8 = .ok (.adc .acc (.mem .progAbs)) := rfl
theorem test_decode_sub : decodeOpcode 0b10101000#8 = .ok (.sub .ix .acc) := rfl
theorem test_decode_add : decodeOpcode 0b10110011#8 = .ok (.add .acc .immFolded) := rfl
theorem test_decode_eor : decodeOpcode 0b11001001#8 = .ok (.eor .ix .ix) := rfl
theorem test_decode_or : decodeOpcode 0b11011010#8 = .ok (.or .ix .imm) := rfl
theorem test_decode_and : decodeOpcode 0b11100100#8 = .ok (.and .acc (.mem .progAbs)) := rfl
theorem test_decode_cmp : decodeOpcode 0b11111101#8 = .ok (.cmp .ix (.mem .dataAbs)) := rfl
theorem test_decode_rejects_by_name :
    decodeOpcode 0x08#8 = .error (.unknownInstruction 0x08#8) ∧ decodeOpcode 0x09#8 = .error (.unknownInstruction 0x09#8) ∧
      decodeOpcode 0x50#8 = .error (.unknownInstruction 0x50#8) ∧
      decodeOpcode 0x5F#8 = .error (.unknownInstruction 0x5F#8) := ⟨rfl, rfl, rfl, rfl⟩
theorem test_decode_short_bytes :
    decodeBytes [] = .error .noOpcodeByte ∧ decodeBytes [0x0A#8] = .error .noSecondWord := ⟨rfl, rfl⟩
/-- ST with an immediate destination takes one byte: the second word is never fetched (R61, D11). -/
theorem test_decode_st_immediate_is_one_byte :
    decodeBytes [0x72#8, 0x40#8] = .ok (⟨.st .acc .imm, none⟩, [0x40#8]) := rfl

/-! ## The host's two entry points -/

theorem test_decodeTableWord :
    decodeTableWord 16 0x4262 = some (.ld .acc .imm) ∧ decodeTableWord 8 0x62 = some (.ld .acc .imm) ∧
      decodeTableWord 16 0x400A = some .jal ∧ decodeTableWord 8 0x50 = none := by decide
theorem test_withFetchWord_runs_the_word :
    (ran (State.reset.withFetchWord 16 0x4262)).map (fun t => (t.acc, t.pc)) = some (0x42#8, 2) := by decide
theorem test_withFetchWord_restarts_a_halted_machine :
    (ran (State.withFetchWord { State.reset with run := .halted .hlt } 8 0x28)).map (fun t => t.flags.cf) = some true := by
  decide

/-! ## ALU (95 §1, §2.1) -/

theorem test_add_overflows : alu 0xB2#8 0x01#8 0x7F#8 false = some (0x80#8, 2, ⟨false, true, true, false⟩) := by decide
theorem test_add_ignores_and_keeps_carry :
    alu 0xB2#8 0x34#8 0x12#8 true = some (0x46#8, 2, ⟨true, false, false, false⟩) := by decide
/-- 0xFF + 0x01 under the three values of ADD_VF_RULE (95 §2.1.1): VF = 1, 0, 0. -/
theorem test_add_vf_rule :
    [AddVfRule.carryOrOverflow, .overflow, .cfinOrOverflow].map (fun r =>
      (ran { boot 0 [0xB2#8, 0x01#8] with acc := 0xFF#8, cfg := ⟨r⟩ }).map (·.flags.vf)) =
        [some true, some false, some false] := by decide
theorem test_adc_carries : alu 0x92#8 0x00#8 0xFF#8 true = some (0x00#8, 2, ⟨true, false, false, true⟩) := by decide
theorem test_adc_overflows : alu 0x92#8 0xFF#8 0x80#8 false = some (0x7F#8, 2, ⟨true, true, false, false⟩) := by decide
theorem test_sub_of_0x80 : alu 0xA2#8 0x80#8 0x00#8 false = some (0x80#8, 2, ⟨false, false, true, false⟩) := by decide
theorem test_sub_keeps_carry : alu 0xA2#8 0xFF#8 0xFF#8 true = some (0x00#8, 2, ⟨true, false, false, true⟩) := by decide
theorem test_sbc_wraps_minus_one : alu 0x82#8 0x00#8 0x00#8 true = some (0xFF#8, 2, ⟨false, true, true, false⟩) := by decide
theorem test_sbc_of_zero_inverts_borrow :
    alu 0x82#8 0x00#8 0x05#8 false = some (0x05#8, 2, ⟨true, false, false, false⟩) := by decide
theorem test_cmp_writes_no_register : alu 0xF2#8 0x20#8 0x10#8 true = some (0x10#8, 2, ⟨true, false, true, false⟩) := by decide
theorem test_cmp_of_0x80 : alu 0xF2#8 0x80#8 0x80#8 false = some (0x80#8, 2, ⟨false, true, false, true⟩) := by decide
theorem test_and : alu 0xE2#8 0x55#8 0xAA#8 true = some (0x00#8, 2, ⟨true, false, false, true⟩) := by decide
theorem test_or : alu 0xD2#8 0x05#8 0xA0#8 false = some (0xA5#8, 2, ⟨false, false, true, false⟩) := by decide
theorem test_eor : alu 0xC2#8 0xFF#8 0x5A#8 false = some (0xA5#8, 2, ⟨false, false, true, false⟩) := by decide
/-- ADD ACC, [P:IX+0xF0] reaches 0x110, in the data bank (95 §2.1.2, D4). -/
theorem test_add_indexed_program_does_not_wrap :
    (ran { boot 0 [0xB6#8, 0xF0#8] [(0x110, 0x7F#8)] with acc := 0x01#8, ix := 0x20#8 }).map (fun t => (t.acc, t.pc)) =
      some (0x80#8, 2) := by decide
/-- OR ACC, [D:IX+0xFF] halts at 0x2FE and writes nothing (95 §2.1.2). -/
theorem test_or_out_of_range :
    (ran { boot 0 [0xD7#8, 0xFF#8] with acc := 0x01#8, ix := 0xFF#8 }).map (fun t => (t.acc, t.pc, t.run, t.diag)) =
      some (0x01#8, 2, .halted (.addressOutOfRange 0x2FE), [⟨.addressOutOfRange 0x2FE, 0⟩]) := by decide

/-! ## Shifts (95 §2.2) -/

theorem test_sra : shift 0x40#8 0x81#8 false = some (0xC0#8, 1, ⟨true, false, true, false⟩) := by decide
theorem test_sla : shift 0x41#8 0x80#8 false = some (0x00#8, 1, ⟨true, true, false, true⟩) := by decide
theorem test_srl : shift 0x42#8 0x81#8 false = some (0x40#8, 1, ⟨true, false, false, false⟩) := by decide
theorem test_sll : shift 0x43#8 0x40#8 false = some (0x80#8, 1, ⟨false, false, true, false⟩) := by decide
theorem test_rra : shift 0x44#8 0x40#8 true = some (0xA0#8, 1, ⟨false, false, true, false⟩) := by decide
theorem test_rla : shift 0x45#8 0x40#8 true = some (0x81#8, 1, ⟨false, true, true, false⟩) := by decide
theorem test_rrl : shift 0x46#8 0x81#8 false = some (0xC0#8, 1, ⟨true, false, true, false⟩) := by decide
theorem test_rll : shift 0x47#8 0x80#8 false = some (0x01#8, 1, ⟨true, false, false, false⟩) := by decide
/-- SLA IX (R85's example) shifts IX and not ACC. -/
theorem test_sla_ix :
    (ran { boot 0 [0x49#8] with ix := 0x81#8, acc := 0x11#8 }).map (fun t => (t.acc, t.ix, t.flags)) =
      some (0x11#8, 0x02#8, ⟨true, true, false, false⟩) := by decide

/-! ## Branches (95 §2.3): the two states of each row; taken is 0x40, not taken 0x12 -/

theorem test_bbc0 : branch 0x30#8 ⟨false, false, false, false⟩ false false = some 0x40 ∧
    branch 0x30#8 ⟨true, false, false, true⟩ false false = some 0x40 := by decide
theorem test_bbc1 : branch 0x31#8 ⟨false, false, false, false⟩ false false = some 0x40 ∧
    branch 0x31#8 ⟨false, false, false, true⟩ false false = some 0x12 := by decide
theorem test_bbc2 : branch 0x32#8 ⟨false, false, false, false⟩ false false = some 0x40 ∧
    branch 0x32#8 ⟨false, false, true, false⟩ false false = some 0x12 := by decide
theorem test_bbc3 : branch 0x33#8 ⟨false, false, false, false⟩ false false = some 0x40 ∧
    branch 0x33#8 ⟨false, false, false, true⟩ false false = some 0x12 := by decide
theorem test_bbc4 : branch 0x34#8 ⟨false, false, false, false⟩ false true = some 0x40 ∧
    branch 0x34#8 ⟨false, false, false, false⟩ true false = some 0x12 := by decide
theorem test_bbc5 : branch 0x35#8 ⟨false, false, false, false⟩ false false = some 0x40 ∧
    branch 0x35#8 ⟨true, false, false, false⟩ false false = some 0x12 := by decide
theorem test_bbc6 : branch 0x36#8 ⟨false, true, true, false⟩ false false = some 0x40 ∧
    branch 0x36#8 ⟨false, true, false, false⟩ false false = some 0x12 := by decide
theorem test_bbc7 : branch 0x37#8 ⟨false, false, false, false⟩ false false = some 0x40 ∧
    branch 0x37#8 ⟨false, false, false, true⟩ false false = some 0x12 := by decide
theorem test_bbc8 : branch 0x38#8 ⟨false, true, false, false⟩ false false = some 0x40 ∧
    branch 0x38#8 ⟨false, false, false, false⟩ false false = some 0x12 := by decide
theorem test_bbc9 : branch 0x39#8 ⟨false, false, false, true⟩ false false = some 0x40 ∧
    branch 0x39#8 ⟨false, false, false, false⟩ false false = some 0x12 := by decide
theorem test_bbc10 : branch 0x3A#8 ⟨false, false, true, false⟩ false false = some 0x40 ∧
    branch 0x3A#8 ⟨false, false, false, false⟩ false false = some 0x12 := by decide
theorem test_bbc11 : branch 0x3B#8 ⟨false, false, false, true⟩ false false = some 0x40 ∧
    branch 0x3B#8 ⟨false, false, false, false⟩ false false = some 0x12 := by decide
theorem test_bbc12 : branch 0x3C#8 ⟨false, false, false, false⟩ false true = some 0x40 ∧
    branch 0x3C#8 ⟨false, false, false, false⟩ true false = some 0x12 := by decide
theorem test_bbc13 : branch 0x3D#8 ⟨true, false, false, false⟩ false false = some 0x40 ∧
    branch 0x3D#8 ⟨false, false, false, false⟩ false false = some 0x12 := by decide
theorem test_bbc14 : branch 0x3E#8 ⟨false, true, false, false⟩ false false = some 0x40 ∧
    branch 0x3E#8 ⟨false, true, true, false⟩ false false = some 0x12 := by decide
theorem test_bbc15 : branch 0x3F#8 ⟨false, false, false, true⟩ false false = some 0x40 ∧
    branch 0x3F#8 ⟨false, false, false, false⟩ false false = some 0x12 := by decide

/-! ## LD and ST (95 §2.4) -/

theorem test_ld_modes :
    [[0x68#8], [0x61#8], [0x62#8, 0x12#8], [0x63#8, 0x12#8], [0x64#8, 0x12#8], [0x65#8, 0x12#8], [0x66#8, 0x12#8],
      [0x6F#8, 0x12#8]].map (loaded 0x20#8) =
    [some (0x99#8, 0x99#8, 1), some (0x20#8, 0x20#8, 1), some (0x12#8, 0x20#8, 2), some (0x12#8, 0x20#8, 2),
      some (0x11#8, 0x20#8, 2), some (0x22#8, 0x20#8, 2), some (0x33#8, 0x20#8, 2), some (0x99#8, 0x44#8, 2)] := by decide
theorem test_ld_last_cell : loaded 0xE0#8 [0x67#8, 0x1F#8] = some (0xAB#8, 0xE0#8, 2) := by decide
theorem test_st_indexed_data :
    (ran (ldst 0x20#8 [0x7F#8, 0x40#8])).map (fun t => (t.mem.read 0x160, t.mem.read 0x161, t.pc)) =
      some (0x20#8, 0x00#8, 2) := by decide
theorem test_st_out_of_range :
    (ran (ldst 0xE1#8 [0x7F#8, 0x1F#8])).map (fun t => (t.run, t.pc, decide (t.mem = (ldst 0xE1#8 [0x7F#8, 0x1F#8]).mem))) =
      some (.halted (.addressOutOfRange 0x200), 2, true) := by decide
theorem test_st_illegal_operands :
    [0x70#8, 0x71#8, 0x72#8, 0x73#8, 0x78#8, 0x7B#8].map (fun b => (ran (ldst 0x20#8 [b, 0x40#8])).map (fun t => (t.run, t.pc))) =
      [some (.halted (.illegalOperand 0x70#8), 1), some (.halted (.illegalOperand 0x71#8), 1),
        some (.halted (.illegalOperand 0x72#8), 1), some (.halted (.illegalOperand 0x73#8), 1),
        some (.halted (.illegalOperand 0x78#8), 1), some (.halted (.illegalOperand 0x7B#8), 1)] := by decide

/-! ## Control, flags, I/O, errors (95 §2.5, §2.6) -/

theorem test_jal : (ran (boot 3 [0x0A#8, 0x10#8])).map (fun t => (t.acc, t.pc)) = some (0x05#8, 0x10) := by decide
theorem test_jal_link_is_truncated :
    (ran (boot 0xFE [0x0A#8, 0x30#8])).map (fun t => (t.acc, t.pc)) = some (0x00#8, 0x30) := by decide
theorem test_jr : (ran { boot 0x40 [0x0B#8] with acc := 0x05#8 }).map (·.pc) = some 0x05 := by decide
theorem test_nop : ran (boot 0x20 [0x05#8]) = some { boot 0x20 [0x05#8] with pc := 0x21 } := by decide
theorem test_hlt : ran (boot 0x0E [0x0F#8]) = some { boot 0x0E [0x0F#8] with pc := 0x0F, run := .halted .hlt } := by decide
theorem test_hlt_at_the_last_cell : (ran (boot 0x1FF [0x0C#8])).map (fun t => (t.pc, t.run)) = some (0x200, .halted .hlt) := by
  decide
theorem test_rcf : (ran { boot 0 [0x27#8] with flags := ⟨true, true, true, true⟩ }).map (·.flags) =
    some ⟨false, true, true, true⟩ := by decide
theorem test_scf : (ran (boot 0 [0x2F#8])).map (·.flags) = some ⟨true, false, false, false⟩ := by decide
theorem test_out : (ran { boot 0 [0x17#8] with acc := 0x43#8, obuf := ⟨0x42#8, true⟩ }).map (·.obuf) =
    some ⟨0x43#8, true⟩ := by decide
theorem test_in_without_input :
    (ran { boot 0 [0x1F#8] with acc := 0x99#8, ix := 0x77#8, ibuf := ⟨0x41#8, false⟩ }).map (fun t => (t.acc, t.ix, t.ibuf)) =
      some (0x41#8, 0x77#8, ⟨0x41#8, false⟩) := by decide
theorem test_in : (ran { boot 0 [0x18#8] with ibuf := ⟨0x41#8, true⟩ }).map (fun t => (t.acc, t.ibuf)) =
    some (0x41#8, ⟨0x41#8, false⟩) := by decide
theorem test_unknown :
    (ran { boot 0 [0x08#8] with acc := 0x12#8, ix := 0x34#8 }).map (fun t => (t.acc, t.ix, t.pc, t.run, t.diag)) =
      some (0x12#8, 0x34#8, 1, .halted (.unknownInstruction 0x08#8), [⟨.unknownInstruction 0x08#8, 0⟩]) := by decide
theorem test_second_word_past_the_array :
    (ran (boot 0x1FF [0x62#8])).map (fun t => (t.run, t.pc)) = some (.halted (.addressOutOfRange 0x200), 0x200) := by decide
theorem test_second_word_in_the_data_bank :
    (ran (boot 0xFF [0x62#8, 0x5A#8])).map (fun t => (t.acc, t.pc)) = some (0x5A#8, 0x101) := by decide
theorem test_opcode_past_the_array :
    (ran { State.reset with pc := 0x200 }).map (fun t => (t.run, t.pc)) =
      some (.halted (.addressOutOfRange 0x200), 0x200) := by decide
theorem test_no_step_from_halted : step { State.reset with run := .halted .hlt } = .refused (.noStepFromHalted .hlt) := rfl
theorem test_core_resets_to_running : (Sys2Proof.core.reset).run = .running := rfl

/-! ## Witnesses: for each statement with hypotheses, a state (and operands) that meet all of them together, clause by clause
and at the boundary values. A statement not named here has no hypothesis. -/

/-- Running, `pc` < 512, and the byte at `pc` is `b`. -/
def fetches (s : State) (b : Byte) : Bool := decide (s.run = .running) && decide (s.pc < 512) && decide (s.mem.read s.pc = b)

theorem witness_StepExecutesTheDecodedInstruction :
    fetches (boot 0x1FF [0x0B#8]) 0x0B#8 = true ∧ decodeOpcode 0x0B#8 = .ok .jr := ⟨by decide, rfl⟩

theorem witness_UnknownOpcodeHaltsOnePastTheByte :
    fetches (boot 0 [0x08#8]) 0x08#8 = true ∧ fetches (boot 0 [0x09#8]) 0x09#8 = true ∧
      fetches (boot 0 [0x50#8]) 0x50#8 = true ∧ fetches (boot 0x1FF [0x5F#8]) 0x5F#8 = true := by decide

theorem witness_StoreToRegisterOrImmediateHalts :
    fetches (boot 0 [0x70#8]) 0x70#8 = true ∧ fetches (boot 0 [0x73#8]) 0x73#8 = true ∧
      fetches (boot 0 [0x78#8]) 0x78#8 = true ∧ fetches (boot 0x1FF [0x7B#8]) 0x7B#8 = true := by decide

theorem witness_AddressOutOfRange_opcode_fetch :
    (State.reset.setPc 512).run = .running ∧ 512 ≤ (State.reset.setPc 512).pc := by decide
theorem witness_AddressOutOfRange_second_word :
    fetches (boot 511 [0x62#8]) 0x62#8 = true ∧ decodeOpcode 0x62#8 = .ok (.ld .acc .imm) ∧
      (Instr.ld .acc .imm).length = 2 := ⟨by decide, rfl, rfl⟩
/-- The least effective address out of range, for a source and for a store, with the instruction as high as it can stand. -/
theorem witness_AddressOutOfRange_indexed_data :
    fetches { boot 510 [0x67#8, 0x01#8] with ix := 0xFF#8 } 0x67#8 = true ∧
      decodeOpcode 0x67#8 = .ok (.ld .acc (.mem .dataIdx)) ∧
      fetches { boot 0 [0x7F#8, 0xFF#8] with ix := 0x01#8 } 0x7F#8 = true ∧
      decodeOpcode 0x7F#8 = .ok (.st .ix (.mem .dataIdx)) ∧
      0x100 + (0xFF#8).toNat + (0x01#8).toNat = 0x200 := ⟨by decide, rfl, by decide, rfl, rfl⟩
/-- The largest effective addresses of selectors 4, 5 and 6. -/
theorem witness_AddressOutOfRange_other_selectors :
    effAddr .progAbs 0xFF#8 0xFF#8 = 0x0FF ∧ effAddr .dataAbs 0xFF#8 0xFF#8 = 0x1FF ∧
      effAddr .progIdx 0xFF#8 0xFF#8 = 0x1FE := by decide

theorem witness_NoStepFromHalted : ({ State.reset with run := .halted .hlt } : State).run = .halted .hlt := rfl

/-- A step that continues, one that halts by HLT, and one that halts with an error. -/
theorem witness_StepHaltsOnTheFirstCauseOnly :
    (boot 0 [0x00#8]).run = .running ∧ stepHalt (boot 0 [0x00#8]) = none ∧ stepHalt (boot 0 [0x0C#8]) = some .hlt ∧
      stepHalt (boot 511 [0x67#8]) = some (.addressOutOfRange 512) ∧
      stepHalt (boot 511 [0x70#8]) = some (.illegalOperand 0x70#8) := by decide

/-- Every kind of error halt, and the three cases of `pc` for AddressOutOfRange. -/
theorem witness_ErrorHaltsArePrecise :
    [boot 0 [0x5F#8], boot 0 [0x7B#8], { boot 510 [0x67#8, 0xFF#8] with ix := 0xFF#8 }, boot 511 [0x0A#8],
      State.reset.setPc 512].map (fun s => (ran s).map fun t => (t.run, t.pc)) =
    [some (.halted (.unknownInstruction 0x5F#8), 1), some (.halted (.illegalOperand 0x7B#8), 1),
      some (.halted (.addressOutOfRange 0x2FE), 512), some (.halted (.addressOutOfRange 512), 512),
      some (.halted (.addressOutOfRange 512), 512)] := by decide

theorem witness_DiagnosticExactlyAtAnErrorHalt :
    [boot 0 [0x00#8], boot 0 [0x0C#8], boot 7 [0x08#8]].map (fun s => (ran s).map fun t => (t.run, t.diag)) =
    [some (.running, []), some (.halted .hlt, []),
      some (.halted (.unknownInstruction 0x08#8), [⟨.unknownInstruction 0x08#8, 7⟩])] := by decide

/-- Two bytes and no transfer, at the last place where they fit; and a taken branch. -/
theorem witness_ProgramCounterAfterAStep :
    fetches (boot 510 [0x62#8, 0x42#8]) 0x62#8 = true ∧ decodeOpcode 0x62#8 = .ok (.ld .acc .imm) ∧
      (ran (boot 510 [0x62#8, 0x42#8])).map (fun t => (t.run, t.pc)) = some (.running, 512) ∧
      (ran (boot 510 [0x30#8, 0x42#8])).map (fun t => (t.run, t.pc)) = some (.running, 0x42) :=
  ⟨by decide, rfl, by decide, by decide⟩

theorem boot_inv : (boot 0x1FF [0x0B#8]).Inv := ⟨by decide, by decide, rfl⟩

theorem witness_StepKeepsTheInvariant :
    (boot 0x1FF [0x0B#8]).Inv ∧ step (boot 0x1FF [0x0B#8]) = .next ((boot 0x1FF [0x0B#8]).setPc 0) := ⟨boot_inv, rfl⟩

theorem witness_LaunchStatesMeetTheInvariant :
    (boot 0x1FF [0x0B#8]).isLaunch = true ∧ 511 < 512 := by decide

theorem witness_EveryScheduleKeepsTheInvariant :
    (boot 0 [0x18#8, 0x0C#8]).isLaunch = true ∧
      (after (runSchedule [.act (.produce 0x41#8), .step, .act .consume, .step] (boot 0 [0x18#8, 0x0C#8]))).map
        (fun t => (t.acc, t.run)) = some (0x41#8, .halted .hlt) := by decide

/-- The highest address where the self-branch can stand, for each of the two polls. -/
theorem witness_PollingLoopsWaitForTheHost :
    fetches (boot 0xFF [0x34#8, 0xFF#8]) 0x34#8 = true ∧ (boot 0xFF [0x34#8, 0xFF#8]).mem.read 0x100 = 0xFF#8 ∧
      (boot 0xFF [0x34#8, 0xFF#8]).ibuf.ready = false ∧
      fetches { boot 0xFF [0x3C#8, 0xFF#8] with obuf := ⟨0x42#8, true⟩ } 0x3C#8 = true ∧
      (boot 0xFF [0x3C#8, 0xFF#8]).mem.read 0x100 = 0xFF#8 := by decide

theorem witness_CanonicalMemoriesWithEqualContentsAreEqual :
    Memory.wf [(0, 0x01#8), (511, 0xFF#8)] = true ∧ ∀ a, Memory.read [(0, 0x01#8), (511, 0xFF#8)] a =
      Memory.read [(0, 0x01#8), (511, 0xFF#8)] a := ⟨by decide, fun _ => rfl⟩

/-- The operand forms that can be resolved, at the highest `pc` and at the last cell; and the ways one cannot be: the two
cases of LD, the ALU instructions and ST. -/
theorem witness_OperandRule :
    ((State.reset.setPc 512).operandError .acc = none ∧ (State.reset.setPc 511).operandError .imm = none ∧
      (boot 511 [0xFF#8]).operandError (.mem .dataAbs) = none ∧ (boot 511 [0xFF#8]).memAddr .dataAbs = 511) ∧
    (State.reset.setPc 512).operandError .immFolded = some 512 ∧
      (State.reset.setPc 512).operandError (.mem .progAbs) = some 512 ∧
      State.operandError { boot 0 [0x01#8] with ix := 0xFF#8 } (.mem .dataIdx) = some 512 := by decide

/-- A store that can be resolved, to the last cell; one that cannot; and an illegal one. -/
theorem witness_StoreWritesOnlyTheAddressedCell :
    (boot 511 [0xFF#8]).operandError (.mem .dataAbs) = none ∧ (boot 511 [0xFF#8]).mem.wf = true ∧
      (State.reset.setPc 512).operandError (.mem .dataIdx) = some 512 ∧ OperandB.immFolded.number < 4 := by decide

/-- `s` stores, and `s'`, its next state with `pc` moved back, loads with the same second word. -/
theorem witness_StoreThenLoadReturnsTheValue :
    (boot 1 [0x37#8]).mem.wf = true ∧ (boot 1 [0x37#8]).pc < 512 ∧
      (after (exec (.st .acc (.mem .dataAbs)) { boot 1 [0x37#8] with acc := 0xC3#8 })).map (fun t =>
        (decide ((t.setPc 1).mem = t.mem), (t.setPc 1).secondWord)) = some (true, 0x37#8) := by decide

/-- ST ACC, [P:0x02] at 0x00, with HLT's byte in ACC. -/
theorem witness_StoredByteIsTheNextInstruction :
    fetches { boot 0 [0x74#8, 0x02#8] with acc := 0x0C#8 } 0x74#8 = true ∧
      decodeOpcode 0x74#8 = .ok (.st .acc (.mem .progAbs)) ∧
      ((boot 0 [0x74#8, 0x02#8]).setPc 1).memAddr .progAbs = 2 ∧ decodeOpcode 0x0C#8 = .ok .hlt ∧
      (boot 0 [0x74#8, 0x02#8]).mem.wf = true := ⟨by decide, rfl, by decide, rfl, by decide⟩

/-- The target can be fetched at 511, and not at 512: the two clauses of every branch rule and of JAL's. -/
theorem witness_BranchRule_and_Jal : (State.reset.setPc 511).pc < 512 ∧ 512 ≤ (State.reset.setPc 512).pc := by decide

/-- JAL as high as it can stand, with JR at its target. -/
theorem witness_JalThenJrReturns :
    fetches (boot 510 [0x0A#8, 0x10#8] [(0x10, 0x0B#8)]) 0x0A#8 = true ∧
      (boot 510 [0x0A#8, 0x10#8] [(0x10, 0x0B#8)]).mem.read 511 = 0x10#8 ∧
      (boot 510 [0x0A#8, 0x10#8] [(0x10, 0x0B#8)]).mem.read 0x10 = 0x0B#8 := by decide

theorem witness_NopOnlyAdvances :
    fetches (boot 511 [0x00#8]) 0x00#8 = true ∧ fetches (boot 0 [0x07#8]) 0x07#8 = true := by decide
theorem witness_HltHaltsWithoutADiagnostic :
    fetches (boot 511 [0x0C#8]) 0x0C#8 = true ∧ fetches (boot 0 [0x0F#8]) 0x0F#8 = true := by decide

/-- For the frames over all instructions: instructions that answer a next state, and that are no ST, write a register or not,
write no flag, halt with an error, or complete. -/
theorem witness_frames :
    exec .jr State.reset = .next (State.reset.setPc 0) ∧ (∀ a b, Instr.jr ≠ .st a b) ∧ Instr.jr.writesReg .acc = false ∧
      Instr.inp.writesReg .ix = false ∧ (Instr.ld .ix .imm).writesReg .acc = false ∧
      Instr.jr.writesFlags = ⟨false, false, false, false⟩ ∧ (Instr.add .acc .imm).writesFlags.cf = false ∧
      Instr.rcf.writesFlags.zf = false ∧
      executeHalt (.adc .acc .imm) (State.reset.setPc 512) = some (.addressOutOfRange 512) ∧
      executeHalt (.and .acc .imm) State.reset = none ∧ executeHalt (.srl .ix) State.reset = none ∧
      executeHalt .rcf State.reset = none ∧ executeHalt .scf State.reset = none := by
  refine ⟨rfl, ?_, by decide, by decide, by decide, by decide, by decide, by decide, by decide, by decide, by decide, by decide,
    by decide⟩
  intro a b h
  cases h

/-- Input and output pending before IN and before OUT, both of which answer a next state. -/
theorem witness_BuffersChangeOnlyUnderInAndOut :
    (after (exec .inp { State.reset with ibuf := ⟨0x41#8, true⟩, obuf := ⟨0x42#8, true⟩ })).map (fun t => (t.ibuf, t.obuf)) =
      some (⟨0x41#8, false⟩, ⟨0x42#8, true⟩) ∧
    (after (exec .out { State.reset with ibuf := ⟨0x41#8, true⟩, obuf := ⟨0x42#8, true⟩ })).map (fun t => (t.ibuf, t.obuf)) =
      some (⟨0x41#8, true⟩, ⟨0x00#8, true⟩) := by decide

/-- A step of each kind: NOP, after which the states still differ, and OUT, after which they do not. -/
theorem witness_OutputValueIsNeverRead :
    step (boot 0 [0x00#8]) = .next ((boot 0 [0x00#8]).setPc 1) ∧
      step (boot 0 [0x10#8]) = .next { boot 0 [0x10#8] with pc := 1, obuf := ⟨0x00#8, true⟩ } := ⟨rfl, rfl⟩

/-- A taken branch and a JAL as high as they can stand, and a JR at the last cell, each with an instruction at its target. -/
theorem witness_TransfersHaveNoDelaySlot :
    fetches (boot 510 [0x30#8, 0x10#8] [(0x10, 0x28#8)]) 0x30#8 = true ∧ decodeOpcode 0x30#8 = .ok .bbc0 ∧
      transferTarget .bbc0 (boot 510 [0x30#8, 0x10#8] [(0x10, 0x28#8)]) = some 0x10 ∧
      (boot 510 [0x30#8, 0x10#8]).pc + Instr.bbc0.length ≤ 512 ∧
      (boot 510 [0x30#8, 0x10#8] [(0x10, 0x28#8)]).mem.read 0x10 = 0x28#8 ∧ decodeOpcode 0x28#8 = .ok .scf ∧
      transferTarget .jal (boot 510 [0x0A#8, 0xFF#8]) = some 0xFF ∧
      fetches (boot 511 [0x0B#8]) 0x0B#8 = true ∧ decodeOpcode 0x0B#8 = .ok .jr ∧
      transferTarget .jr (boot 511 [0x0B#8]) = some 0 ∧ (boot 511 [0x0B#8]).pc + Instr.jr.length ≤ 512 :=
  ⟨by decide, rfl, by decide, by decide, by decide, rfl, by decide, by decide, rfl, by decide, by decide⟩

theorem witness_IoAccessesHaveExactlyTheirSideEffects :
    .bbc12 ∈ branches ∧ (State.reset.setPc 511).pc < 512 ∧ branches.length = 16 := by decide

end Sys2Proof.Tests
end

section
/-! What an instruction halts with, read off its operand, and the answer of an instruction that halts with
AddressOutOfRange: the two facts that the statements about the out-of-range halts are assembled from. -/

namespace Sys2Proof.Machine

/-! ## What an instruction of two bytes halts with -/

/-- A two-byte instruction with an operand B halts exactly where the operand cannot be resolved (R68, R70). -/
theorem executeHalt_of_operand {i : Instr} {b : OperandB} (hb : i.operand = some b) (hl : i.length = 2) (s : State) :
    executeHalt i s = (s.operandError b).map .addressOutOfRange := by
  cases i with
  | st a c =>
    obtain rfl : c = b := Option.some.inj hb
    have hd : c.isStoreDest = true := by simpa [Instr.length] using hl
    exact if_pos hd
  | _ => cases hb <;> rfl

/-- A two-byte instruction with no operand B is JAL or a branch, and halts exactly where its target cannot be fetched. -/
theorem executeHalt_of_target {i : Instr} (hb : i.operand = none) (hl : i.length = 2) (s : State) :
    executeHalt i s = if s.pc < 512 then none else some (.addressOutOfRange s.pc) := by
  cases i with
  | jal => rfl
  | bbc0 | bbc1 | bbc2 | bbc3 | bbc4 | bbc5 | bbc6 | bbc7 => rfl
  | bbc8 | bbc9 | bbc10 | bbc11 | bbc12 | bbc13 | bbc14 | bbc15 => rfl
  | ld | st | sbc | adc | sub | add | eor | or | and | cmp => cases hb
  | _ => cases hl

theorem operandLength_eq_two_iff {b : OperandB} : b.length = 2 ↔ b.fold.hasSecondWord = true := by
  simp [OperandB.length]

/-- The operand of a two-byte instruction has a second word (R61, R68). -/
theorem hasSecondWord_of_length {i : Instr} {b : OperandB} (hb : i.operand = some b) (hl : i.length = 2) :
    b.fold.hasSecondWord = true := by
  cases i with
  | st a c =>
    obtain rfl : c = b := Option.some.inj hb
    cases c with
    | mem m => rfl
    | _ => cases hl
  | _ => cases hb <;> exact operandLength_eq_two_iff.mp hl

theorem operandError_of_ge {s : State} {b : OperandB} (hb : b.fold.hasSecondWord = true) (h : ¬ s.pc < 512) :
    s.operandError b = some s.pc := by
  cases b with
  | acc => cases hb
  | ix => cases hb
  | imm => exact if_neg h
  | immFolded => exact if_neg h
  | mem m => exact operandError_mem_of_pc h

/-- A two-byte instruction whose second word lies past the array halts at that index (R11, R110). -/
theorem executeHalt_of_ge {i : Instr} {s : State} (hl : i.length = 2) (h : ¬ s.pc < 512) :
    executeHalt i s = some (.addressOutOfRange s.pc) := by
  cases hb : i.operand with
  | none => rw [executeHalt_of_target hb hl, if_neg h]
  | some b => rw [executeHalt_of_operand hb hl, operandError_of_ge (hasSecondWord_of_length hb hl) h]; rfl

theorem length_of_memOperand {i : Instr} {m : MemMode} (hb : i.operand = some (.mem m)) : i.length = 2 := by
  cases i <;> cases hb <;> rfl

/-- An indexed-data operand whose second word can be fetched fails where its address leaves the array (R35). -/
theorem operandError_dataIdx_of_ge {s : State} (h : s.pc < 512) (he : 512 ≤ 0x100 + s.ix.toNat + s.secondWord.toNat) :
    s.operandError (.mem .dataIdx) = some (0x100 + s.ix.toNat + s.secondWord.toNat) := by
  have ha : s.memAddr .dataIdx = 0x100 + s.ix.toNat + s.secondWord.toNat := by
    rw [State.memAddr, effAddr_dataIdx, Nat.add_assoc]
  rw [operandError_mem_of_ge h (by omega), ha]

/-! ## The answer of an instruction that halts with an error -/

/-- An instruction that halts with AddressOutOfRange leaves the state that R110 describes, whatever the instruction. -/
theorem exec_of_addressOutOfRange {i : Instr} {s : State} {e : Nat}
    (h : executeHalt i s = some (.addressOutOfRange e)) : exec i s = .next (s.operandHalt e) := by
  obtain ⟨r, n, hx⟩ | ⟨rfl, -⟩ | ⟨t, hc⟩ := exec_cases i s
  · obtain rfl : r = .addressOutOfRange e := Option.some.inj (hx.halts.symm.trans h)
    obtain ⟨_, _, _, _, hr, _⟩ | ⟨_, _, hlt, hge, _⟩ := hx.pc_and_value
    · cases hr
    · by_cases hp : s.pc < 512
      · rw [hx.answer, operandHalt_of_lt hp, hlt hp]
      · rw [hx.answer, operandHalt_of_ge hp, hge hp]
  · cases h
  · cases hc.noHalt.symm.trans h

/-- An instruction that ends Halted with an error, from Running, ended by the halt that `ErrorHalt` describes. -/
theorem errorHalt_of_exec {i : Instr} {s t : State} {r : HaltReason} (hs : s.run = .running)
    (h : exec i s = .next t) (ht : t.run = .halted r) (hr : r.isError = true) :
    ∃ n, ErrorHalt i s r n ∧ t = s.haltedWith r n := by
  obtain ⟨r', n, hx⟩ | ⟨-, hx⟩ | ⟨u, hc⟩ := exec_cases i s
  · obtain rfl : s.haltedWith r' n = t := Host.Outcome.next.inj (hx.answer.symm.trans h)
    obtain rfl : r' = r := RunState.halted.inj ht
    exact ⟨n, hx, rfl⟩
  · obtain rfl := Host.Outcome.next.inj (hx.symm.trans h)
    obtain rfl := RunState.halted.inj ht
    cases hr
  · obtain rfl : u = t := Host.Outcome.next.inj (hc.answer.symm.trans h)
    cases ht.symm.trans (hc.run.trans hs)

/-! ## The step -/

theorem step_of_decode {s : State} {i : Instr} (hr : s.run = .running) (hp : s.pc < 512)
    (hd : decodeOpcode (s.mem.read s.pc) = .ok i) : step s = exec i (s.setPc (s.pc + 1)) := by
  rw [step_of_running hr, fetchDecode_of_ok hp hd, Resolved.ok_andThen]

theorem step_of_pc_ge {s : State} (hr : s.run = .running) (hp : ¬ s.pc < 512) :
    step s = .next (raise s.pc (.addressOutOfRange s.pc) s) := by
  rw [step_of_running hr, fetchDecode_of_ge hp, Resolved.raised_andThen]

end Sys2Proof.Machine

namespace Sys2Proof.Proofs

open Sys2Proof.Machine Sys2Proof.Claims

/-- An instruction that is `branchIf` over a condition, and decoded from `ir`, obeys the branch rule of that condition. -/
theorem branchRule_of_branchIf {ir : Nat} {i : Instr} {cond : State → Bool} (hn : Names ir i 2)
    (hi : ∀ s, exec i s = branchIf (cond s) s) : BranchRule ir i cond :=
  ⟨hn, fun s => ⟨fun h => (hi s).trans (branchIf_of_lt _ h), fun h => (hi s).trans (branchIf_of_ge _ (by omega))⟩⟩

/-! ## Obligations -/

/-- Settles O7. Each place of R110 is one halt: the opcode fetch's by `step_of_pc_ge`, the other two by what `executeHalt`
says of the instruction on the state after the opcode fetch. -/
theorem addressOutOfRangeIsRaisedInThreePlaces : Obligations.AddressOutOfRangeIsRaisedInThreePlaces := by
  refine ⟨fun s hr hp => step_of_pc_ge hr (by omega), ?_, ?_, fun m x d hm => Nat.le_of_lt_succ (effAddr_lt_of_ne hm x d)⟩
  · intro s i hr hp hd hl
    have hx : executeHalt i (s.setPc (s.pc + 1)) = some (.addressOutOfRange (s.pc + 1)) :=
      executeHalt_of_ge hl (by simp [hp])
    rw [step_of_decode hr (by omega) hd, exec_of_addressOutOfRange hx, operandHalt_of_ge (by simp [hp])]
    simp [State.haltedWith, hp]
  · rintro s i e hr hp hd hb rfl he
    have hx : executeHalt i (s.setPc (s.pc + 1)) =
        some (.addressOutOfRange (0x100 + s.ix.toNat + (s.mem.read (s.pc + 1)).toNat)) := by
      rw [executeHalt_of_operand hb (length_of_memOperand hb),
        operandError_dataIdx_of_ge (s := s.setPc (s.pc + 1)) hp he]
      rfl
    rw [step_of_decode hr (by omega) hd, exec_of_addressOutOfRange hx, operandHalt_of_lt (by simpa using hp)]
    rfl

/-- Settles O10, case by case over what a step can have done: a failed opcode fetch, an unknown byte, or an instruction that
halted on the state after its opcode fetch. -/
theorem errorHaltsArePrecise : Obligations.ErrorHaltsArePrecise := by
  intro s t r hstep ht hr
  obtain ⟨hrun, ⟨hp, rfl⟩ | ⟨hp, -, rfl⟩ | ⟨i, hp, -, hexec⟩⟩ := step_cases hstep
  · obtain rfl := RunState.halted.inj ht
    exact ⟨rfl, by simp, fun e _ => by simp [show ¬ s.pc < 511 by omega, show s.pc ≠ 511 by omega]⟩
  · obtain rfl := RunState.halted.inj ht
    exact ⟨rfl, by simp, by simp⟩
  · obtain ⟨n, hx, rfl⟩ := errorHalt_of_exec (s := s.setPc (s.pc + 1)) hrun hexec ht hr
    refine ⟨rfl, ?_⟩
    obtain ⟨_, _, _, _, rfl, rfl⟩ | ⟨_, rfl, hlt, hge, _⟩ := hx.pc_and_value
    · exact ⟨fun _ _ => rfl, by simp⟩
    · simp only [State.setPc_pc] at hlt hge
      refine ⟨by simp, fun _ _ => ?_⟩
      simp only [State.haltedWith_pc]
      split_ifs <;> omega

/-- Settles O12: each of the three outcomes of `exec_cases` is a next state. -/
theorem everyInstructionAnswersANextState : Obligations.EveryInstructionAnswersANextState := by
  intro i s
  obtain ⟨_, _, hx⟩ | ⟨_, hx⟩ | ⟨_, hc⟩ := exec_cases i s
  · exact ⟨_, hx.answer⟩
  · exact ⟨_, hx⟩
  · exact ⟨_, hc.answer⟩

/-- Settles O4. -/
theorem stepExecutesTheDecodedInstruction : Obligations.StepExecutesTheDecodedInstruction :=
  fun _ _ => step_of_decode

/-- Settles O22. -/
theorem registerSelection : Obligations.RegisterSelection :=
  fun s v => ⟨s.reg_acc, s.reg_ix, s.setReg_acc v, s.setReg_ix v⟩

/-- Settles O38: each of the sixteen is `branchIf` over its own condition. -/
theorem branchesTestTheirConditions : Obligations.BranchesTestTheirConditions := by
  refine ⟨?_, ?_, ?_, ?_, ?_, ?_, ?_, ?_, ?_, ?_, ?_, ?_, ?_, ?_, ?_, ?_⟩ <;>
    exact branchRule_of_branchIf ⟨rfl, rfl⟩ fun _ => rfl

/-- Settles O52. -/
theorem resetIsTheDefaultLaunchState : Obligations.ResetIsTheDefaultLaunchState :=
  ⟨rfl, rfl, rfl, rfl, rfl, rfl, rfl, fun _ => rfl, rfl, rfl⟩

end Sys2Proof.Proofs
end

section
/-! What an instruction that answers `t` has done, whatever the instruction: how it ended, what a diagnostic and a recorded
value can then be, which registers, flags and buffers it left unchanged, where `pc` went, and that nothing depended on the
output value. The statements about the state and its invariant are assembled from these. -/

namespace Sys2Proof.Machine

variable {i : Instr} {s t : State} {r : HaltReason} {n : Nat}

/-! ## How an instruction ends -/

/-- `exec_cases`, read off the answer. -/
theorem exec_next_cases (h : exec i s = .next t) :
    (∃ r n, ErrorHalt i s r n ∧ t = s.haltedWith r n) ∨ (i = .hlt ∧ t = { s with run := .halted .hlt }) ∨
      Completes i s t := by
  obtain ⟨r, n, hx⟩ | ⟨hi, hx⟩ | ⟨u, hc⟩ := exec_cases i s
  · exact .inl ⟨r, n, hx, (Host.Outcome.next.inj (hx.answer.symm.trans h)).symm⟩
  · exact .inr (.inl ⟨hi, (Host.Outcome.next.inj (hx.symm.trans h)).symm⟩)
  · obtain rfl : u = t := Host.Outcome.next.inj (hc.answer.symm.trans h)
    exact .inr (.inr hc)

/-- An error halt leaves `pc` where it was or one further, and inside its range. -/
theorem ErrorHalt.pc_bounds (hx : ErrorHalt i s r n) (hp : s.pc ≤ 512) : s.pc ≤ n ∧ n ≤ s.pc + 1 ∧ n ≤ 512 := by
  obtain ⟨_, _, _, _, _, rfl⟩ | ⟨_, _, hlt, hge, _⟩ := hx.pc_and_value
  · omega
  · by_cases h : s.pc < 512
    · have := hlt h; omega
    · have := hge h; omega

/-- The value an error halt records is one that R107 admits: the byte of an illegal ST, or an index in [512, 766]. -/
theorem ErrorHalt.legit (hx : ErrorHalt i s r n) (hp : s.pc ≤ 512) : r.legit := by
  obtain ⟨a, b, rfl, hb, rfl, _⟩ | ⟨e, rfl, _, _, hge, hle⟩ := hx.pc_and_value
  · exact ⟨a, b, Laws.RoundTrip.st a b, hb⟩
  · exact ⟨hge, hle hp⟩

/-! ## The run state and the diagnostic port -/

theorem State.diagAgrees_of_running (hr : t.run = .running) : t.diagAgrees ↔ t.diag = [] := by
  simp [State.diagAgrees, hr]

theorem State.diagAgrees_of_hlt (hr : t.run = .halted .hlt) : t.diagAgrees ↔ t.diag = [] := by
  simp [State.diagAgrees, hr, HaltReason.legit, HaltReason.isError]

theorem State.diagAgrees_of_error (hr : t.run = .halted r) (he : r.isError = true) (hl : r.legit)
    (hd : t.diag = [⟨r, n⟩]) (hle : n ≤ t.pc) (hge : t.pc ≤ n + 2) : t.diagAgrees := by
  rw [State.diagAgrees, hr]
  exact ⟨hl, by rw [if_pos he]; exact ⟨n, hd, hle, hge⟩⟩

/-- An instruction keeps the invariant, executed after an opcode fetch from a state that meets it. -/
theorem exec_keeps_inv (hs : s.Inv) (hr : s.run = .running) (hp : s.pc < 512)
    (h : exec i (s.setPc (s.pc + 1)) = .next t) : t.Inv := by
  have hd : s.diag = [] := (State.diagAgrees_of_running hr).mp hs.diag_agrees
  obtain ⟨r, n, hx, rfl⟩ | ⟨-, rfl⟩ | hc := exec_next_cases h
  · obtain ⟨hge, hle, hmax⟩ : s.pc + 1 ≤ n ∧ n ≤ s.pc + 2 ∧ n ≤ 512 := hx.pc_bounds hp
    exact ⟨hs.mem_wf, hmax,
      State.diagAgrees_of_error (n := s.pc) rfl hx.isError (hx.legit hp) (by simp [hd]) (Nat.le_of_succ_le hge) hle⟩
  · exact ⟨hs.mem_wf, hp, (State.diagAgrees_of_hlt rfl).mpr hd⟩
  · exact ⟨hc.wf hs.mem_wf, hc.pc hp, (State.diagAgrees_of_running (hc.run.trans hr)).mpr (hc.diag.trans hd)⟩

/-- A step keeps the invariant: the two halts of the opcode fetch and of the decoder record `pc` and a value that R107
admits, and an executed instruction keeps it by `exec_keeps_inv`. -/
theorem step_keeps_inv (hs : s.Inv) (h : step s = .next t) : t.Inv := by
  obtain ⟨hrun, hcases⟩ := step_cases h
  have hd : s.diag = [] := (State.diagAgrees_of_running hrun).mp hs.diag_agrees
  obtain ⟨hp, rfl⟩ | ⟨hp, ⟨e, he⟩, rfl⟩ | ⟨i, hp, -, hexec⟩ := hcases
  · have hle := hs.pc_le
    have hl : (HaltReason.addressOutOfRange s.pc).legit := ⟨by omega, by omega⟩
    exact ⟨hs.mem_wf, hle, State.diagAgrees_of_error rfl rfl hl (by simp [hd]) le_rfl (Nat.le_add_right _ 2)⟩
  · have hl : (HaltReason.unknownInstruction (s.mem.read s.pc)).legit := he.trans (congrArg _ (decodeOpcode_error he))
    exact ⟨hs.mem_wf, hp, State.diagAgrees_of_error rfl rfl hl (by simp [hd]) (Nat.le_succ _) (Nat.le_succ _)⟩
  · exact exec_keeps_inv hs hrun hp hexec

/-! ## The loader and the host -/

theorem State.load_eq : ∀ (image : List Host.Cell) (s : State), s.load image = { s with mem := (s.load image).mem }
  | [], _ => rfl
  | (a, v) :: rest, s => by
    rw [State.load]
    split
    · exact State.load_eq rest _
    · exact State.load_eq rest s

theorem State.isLaunch_iff :
    s.isLaunch = true ↔ s.mem.wf = true ∧ s.pc < 512 ∧ s.run = .running ∧ s.diag = [] := by
  simp [State.isLaunch, and_assoc]

theorem State.inv_of_isLaunch (h : s.isLaunch = true) : s.Inv := by
  obtain ⟨hm, hp, hr, hd⟩ := State.isLaunch_iff.mp h
  exact ⟨hm, hp.le, (State.diagAgrees_of_running hr).mpr hd⟩

theorem step_of_halted (h : s.run = .halted r) : step s = .refused (.noStepFromHalted r) := by
  rw [step, h]

/-- No host action starts or stops the machine (R46, R106). -/
theorem hostAct_run (a : HostAction) (s : State) : (hostAct a s).run = s.run := by cases a <;> rfl

/-- A host action writes no field that the invariant reads. -/
theorem hostAct_keeps_inv (a : HostAction) (hs : s.Inv) : (hostAct a s).Inv := by
  cases a <;> exact ⟨hs.mem_wf, hs.pc_le, hs.diag_agrees⟩

/-- A run keeps the invariant under every host schedule, from any state that meets it. -/
theorem runSchedule_keeps_inv {events : List HostEvent} (hs : s.Inv) (h : runSchedule events s = .next t) : t.Inv := by
  induction events generalizing s with
  | nil => cases h; exact hs
  | cons event rest ih =>
    cases event with
    | act a => exact ih (hostAct_keeps_inv a hs) h
    | step =>
      rw [runSchedule] at h
      split at h
      · exact ih (step_keeps_inv hs ‹_›) h
      · cases h
      · cases h

/-! ## The shapes of instructions, read off their answer -/

theorem withOperands_next {a : Reg} {b : OperandB} {k : Byte → Byte → State → State}
    (h : withOperands a b k s = .next t) :
    (∃ e, s.operandError b = some e ∧ t = s.operandHalt e) ∨
      (s.operandError b = none ∧ t = k (s.reg a) (s.operandValue b) (s.setPc (s.operandPc b))) := by
  rw [withOperands_eq] at h
  cases hb : s.operandError b with
  | some e => rw [hb] at h; exact .inl ⟨e, rfl, (Host.Outcome.next.inj h).symm⟩
  | none => rw [hb] at h; exact .inr ⟨rfl, (Host.Outcome.next.inj h).symm⟩

theorem branchIf_next {c : Bool} (h : branchIf c s = .next t) :
    (s.pc < 512 ∧ t = s.setPc (if c then s.secondWord.toNat else s.pc + 1)) ∨
      t = s.haltedWith (.addressOutOfRange s.pc) s.pc := by
  by_cases hp : s.pc < 512
  · rw [branchIf_of_lt c hp] at h; exact .inl ⟨hp, (Host.Outcome.next.inj h).symm⟩
  · rw [branchIf_of_ge c hp] at h; exact .inr (Host.Outcome.next.inj h).symm

theorem execJal_next (h : execJal s = .next t) :
    (s.pc < 512 ∧ t = (s.setReg .acc (BitVec.ofNat 8 (s.pc + 1))).setPc s.secondWord.toNat) ∨
      t = s.haltedWith (.addressOutOfRange s.pc) s.pc := by
  by_cases hp : s.pc < 512
  · rw [execJal_of_lt hp] at h; exact .inl ⟨hp, (Host.Outcome.next.inj h).symm⟩
  · rw [execJal_of_ge hp] at h; exact .inr (Host.Outcome.next.inj h).symm

theorem execSt_next {a : Reg} {b : OperandB} (h : execSt a b s = .next t) :
    (b.isStoreDest = true ∧ ∃ m, t = { s.setPc (s.pc + 1) with mem := m }) ∨ ∃ r n, t = s.haltedWith r n := by
  cases hd : b.isStoreDest with
  | false => rw [execSt_illegal_eq a hd] at h; exact .inr ⟨_, _, (Host.Outcome.next.inj h).symm⟩
  | true =>
    cases b with
    | mem m =>
      rw [execSt_mem_eq] at h
      cases hb : s.operandError (.mem m) with
      | some e => rw [hb] at h; exact .inr ⟨_, _, (Host.Outcome.next.inj h).symm⟩
      | none => rw [hb] at h; exact .inl ⟨rfl, _, (Host.Outcome.next.inj h).symm⟩
    | _ => cases hd

/-! ## What an instruction leaves unchanged -/

/-- `g` agrees with `f` on every flag that `w` does not mark. -/
structure Flags.AgreeOff (w f g : Flags) : Prop where
  cf : w.cf = false → g.cf = f.cf
  vf : w.vf = false → g.vf = f.vf
  nf : w.nf = false → g.nf = f.nf
  zf : w.zf = false → g.zf = f.zf

theorem Flags.AgreeOff.refl (w f : Flags) : w.AgreeOff f f :=
  ⟨fun _ => rfl, fun _ => rfl, fun _ => rfl, fun _ => rfl⟩

theorem Flags.AgreeOff.of_all (f g : Flags) : Flags.AgreeOff ⟨true, true, true, true⟩ f g :=
  ⟨nofun, nofun, nofun, nofun⟩

theorem Flags.AgreeOff.of_cf {f g : Flags} (h : g.cf = f.cf) : Flags.AgreeOff ⟨false, true, true, true⟩ f g :=
  ⟨fun _ => h, nofun, nofun, nofun⟩

/-- Between `s` and `t`, only registers and flags in the tables of `i` (R15, R16, R21) and the buffer of `i` (R23, R24)
changed, beside `pc`, memory, the run state and the diagnostic port. -/
structure Frame (i : Instr) (s t : State) : Prop where
  reg : ∀ q, i.writesReg q = false → t.reg q = s.reg q
  flags : i.writesFlags.AgreeOff s.flags t.flags
  ibuf : i ≠ .inp → t.ibuf = s.ibuf
  obuf : i ≠ .out → t.obuf = s.obuf

/-- A state that has all registers, flags and buffers of `s` is in every instruction's frame. -/
theorem Frame.of_eq (h : t = { s with pc := t.pc, mem := t.mem, run := t.run, diag := t.diag }) : Frame i s t := by
  rw [h]
  exact ⟨fun _ _ => rfl, .refl _ _, fun _ => rfl, fun _ => rfl⟩

/-- `pc` is in no frame, before the instruction or after it. -/
theorem Frame.of_setPc (h : Frame i (s.setPc n) t) : Frame i s t :=
  ⟨fun q hq => (h.reg q hq).trans (State.setPc_reg ..), h.flags, h.ibuf, h.obuf⟩

theorem Frame.setPc (h : Frame i s t) (n : Nat) : Frame i s (t.setPc n) :=
  ⟨fun q hq => (State.setPc_reg ..).trans (h.reg q hq), h.flags, h.ibuf, h.obuf⟩

theorem Frame.of_setFlags {f : Flags} (hf : i.writesFlags.AgreeOff s.flags f) : Frame i s (s.setFlags f) :=
  ⟨fun _ _ => State.setFlags_reg .., hf, fun _ => rfl, fun _ => rfl⟩

theorem Frame.of_setReg {a : Reg} {v : Byte} (hr : ∀ q, i.writesReg q = false → a ≠ q) : Frame i s (s.setReg a v) :=
  ⟨fun q hq => State.reg_setReg_of_ne _ (hr q hq) v, by simpa using Flags.AgreeOff.refl _ _,
    fun _ => State.setReg_ibuf .., fun _ => State.setReg_obuf ..⟩

/-- An instruction that writes flags and a register, as the ALU's and the shifts do. -/
theorem Frame.of_result {a : Reg} {v : Byte} {f : Flags} (hr : ∀ q, i.writesReg q = false → a ≠ q)
    (hf : i.writesFlags.AgreeOff s.flags f) : Frame i s ((s.setFlags f).setReg a v) :=
  ⟨fun q hq => (State.reg_setReg_of_ne _ (hr q hq) v).trans (State.setFlags_reg ..), by simpa using hf,
    fun _ => State.setReg_ibuf .., fun _ => State.setReg_obuf ..⟩

theorem Frame.of_branchIf {c : Bool} (h : branchIf c s = .next t) : Frame i s t := by
  obtain ⟨-, rfl⟩ | rfl := branchIf_next h <;> exact .of_eq rfl

/-- An instruction that reads operand B stays in its frame where its effect does, because resolving changes only `pc`. -/
theorem Frame.of_withOperands {a : Reg} {b : OperandB} {k : Byte → Byte → State → State}
    (h : withOperands a b k s = .next t) (hk : ∀ x y u, Frame i u (k x y u)) : Frame i s t := by
  obtain ⟨e, -, rfl⟩ | ⟨-, rfl⟩ := withOperands_next h
  · exact .of_eq rfl
  · exact (hk _ _ _).of_setPc

/-! ## The effect of an instruction that reads operand B -/

/-- `s` with another output value. -/
def State.withOutValue (s : State) (v : Byte) : State := { s with obuf := { s.obuf with value := v } }

theorem State.setReg_withOutValue (a : Reg) (x v : Byte) :
    (s.withOutValue v).setReg a x = (s.setReg a x).withOutValue v := by cases a <;> rfl

theorem State.result_withOutValue (f : Flags) (a : Reg) (x v : Byte) :
    ((s.withOutValue v).setFlags f).setReg a x = ((s.setFlags f).setReg a x).withOutValue v :=
  State.setReg_withOutValue (s := s.setFlags f) a x v

/-- `i` reads its operand `b` and then does `k`, an effect that stays in the frame of `i`, keeps `pc` and carries the output
value along. -/
structure OperandEffect (i : Instr) (a : Reg) (b : OperandB) (k : Byte → Byte → State → State) : Prop where
  answer : ∀ s, exec i s = withOperands a b k s
  frame : ∀ x y u, Frame i u (k x y u)
  pc : ∀ x y u, (k x y u).pc = u.pc
  outValue : ∀ x y u v, k x y (u.withOutValue v) = (k x y u).withOutValue v

/-- LD and the ALU instructions each have such an effect (R71, R74-R81): the one that `answer` reads off the meaning. -/
theorem exists_operandEffect {b : OperandB} (hb : i.operand = some b) (hst : ∀ a c, i ≠ .st a c) :
    ∃ a k, OperandEffect i a b k := by
  cases i with
  | ld a c =>
    obtain rfl := Option.some.inj hb
    exact ⟨a, fun _ y u => u.setReg a y, fun _ => rfl, fun _ _ _ => .of_setReg fun _ => of_decide_eq_false,
      fun _ _ _ => State.setReg_pc .., fun _ _ _ _ => State.setReg_withOutValue ..⟩
  | sbc a c | adc a c =>
    obtain rfl := Option.some.inj hb
    refine ⟨a, ?_⟩
    constructor
    constructor
    case answer => intro s; unfold exec; rfl
    case frame => exact fun _ _ _ => .of_result (fun _ => of_decide_eq_false) (.of_all _ _)
    case pc => exact fun _ _ _ => State.setReg_pc ..
    case outValue => exact fun _ _ _ _ => State.result_withOutValue ..
  | sub a c | add a c | eor a c | or a c | and a c =>
    obtain rfl := Option.some.inj hb
    refine ⟨a, ?_⟩
    constructor
    constructor
    case answer => intro s; unfold exec; rfl
    case frame => exact fun _ _ _ => .of_result (fun _ => of_decide_eq_false) (.of_cf rfl)
    case pc => exact fun _ _ _ => State.setReg_pc ..
    case outValue => exact fun _ _ _ _ => State.result_withOutValue ..
  | cmp a c =>
    obtain rfl := Option.some.inj hb
    refine ⟨a, ?_⟩
    constructor
    constructor
    case answer => intro s; unfold exec; rfl
    case frame => exact fun _ _ _ => .of_setFlags (.of_cf rfl)
    case pc => exact fun _ _ _ => rfl
    case outValue => exact fun _ _ _ _ => rfl
  | st a c => exact absurd rfl (hst a c)
  | _ => cases hb

theorem withOperands_of_exec {b : OperandB} (h : exec i s = .next t) (hb : i.operand = some b)
    (hst : ∀ a c, i ≠ .st a c) : ∃ a k, OperandEffect i a b k ∧ withOperands a b k s = .next t := by
  obtain ⟨a, k, he⟩ := exists_operandEffect hb hst
  exact ⟨a, k, he, he.answer s ▸ h⟩

/-- Every instruction stays in its frame, whether it completes or halts. -/
theorem exec_frame (h : exec i s = .next t) : Frame i s t := by
  cases i with
  | nop | jr | hlt => cases h; exact .of_eq rfl
  | jal =>
    obtain ⟨-, rfl⟩ | rfl := execJal_next h
    · exact (Frame.of_setReg (i := .jal) fun q hq => (of_decide_eq_false hq).imp Eq.symm).setPc _
    · exact .of_eq rfl
  | out => cases h; exact ⟨fun _ _ => rfl, .refl _ _, fun _ => rfl, fun hi => absurd rfl hi⟩
  | inp =>
    cases h
    refine ⟨?_, .refl _ _, fun hi => absurd rfl hi, fun _ => rfl⟩
    rintro (_ | _) hq
    · cases hq
    · rfl
  | rcf | scf => cases h; exact .of_setFlags ⟨nofun, fun _ => rfl, fun _ => rfl, fun _ => rfl⟩
  | bbc0 | bbc1 | bbc2 | bbc3 | bbc4 | bbc5 | bbc6 | bbc7 => exact .of_branchIf h
  | bbc8 | bbc9 | bbc10 | bbc11 | bbc12 | bbc13 | bbc14 | bbc15 => exact .of_branchIf h
  | sra a | sla a | srl a | sll a | rra a | rla a | rrl a | rll a =>
    cases h; exact .of_result (fun _ => of_decide_eq_false) (.of_all _ _)
  | st a b => obtain ⟨-, m, rfl⟩ | ⟨r, n, rfl⟩ := execSt_next h <;> exact .of_eq rfl
  | ld a b | sbc a b | adc a b | sub a b | add a b | eor a b | or a b | and a b | cmp a b =>
    obtain ⟨_, _, he, h⟩ := withOperands_of_exec h rfl nofun
    exact .of_withOperands h he.frame

/-- An instruction that halts changes no flag (R98, R111). -/
theorem flags_of_executeHalt (h : exec i s = .next t) (hx : executeHalt i s = some r) : t.flags = s.flags := by
  obtain ⟨_, _, _, rfl⟩ | ⟨-, rfl⟩ | hc := exec_next_cases h
  · rfl
  · rfl
  · cases hx.symm.trans hc.noHalt

/-- The effect that AND, OR and EOR share leaves VF = 0, where the operand can be resolved (R79). -/
theorem withOperands_logic_vf {a : Reg} {b : OperandB} (f : Byte → Byte → Byte)
    (h : withOperands a b (fun x y u => (u.setFlags (logicFlags u.flags (f x y))).setReg a (f x y)) s = .next t)
    (hn : (s.operandError b).map HaltReason.addressOutOfRange = none) : t.flags.vf = false := by
  obtain ⟨e, he, -⟩ | ⟨-, rfl⟩ := withOperands_next h
  · rw [he] at hn; cases hn
  · rw [State.setReg_flags]; rfl

/-- AND, OR and EOR leave VF = 0 where they complete (R79-R81). -/
theorem logic_vf {a : Reg} {b : OperandB} (hi : i = .and a b ∨ i = .or a b ∨ i = .eor a b) (h : exec i s = .next t)
    (hn : executeHalt i s = none) : t.flags.vf = false := by
  obtain rfl | rfl | rfl := hi
  · exact withOperands_logic_vf (· &&& ·) h hn
  · exact withOperands_logic_vf (· ||| ·) h hn
  · exact withOperands_logic_vf (· ^^^ ·) h hn

/-- Every shift but SLA and RLA leaves VF = 0 (R84, R86-R88, R90, R91). -/
theorem shift_vf {a : Reg} (hi : i = .sra a ∨ i = .srl a ∨ i = .sll a ∨ i = .rra a ∨ i = .rrl a ∨ i = .rll a)
    (h : exec i s = .next t) : t.flags.vf = false := by
  obtain rfl | rfl | rfl | rfl | rfl | rfl := hi <;> cases h <;> exact congrArg Flags.vf (State.setReg_flags ..)

/-! ## Where `pc` goes -/

/-- One past the operand's bytes, counted from the opcode byte (R61, R69). -/
theorem operandPc_of_fetched (s : State) (b : OperandB) : (s.setPc (s.pc + 1)).operandPc b = s.pc + b.length := by
  cases b <;> rfl

theorem withOperands_pc {a : Reg} {b : OperandB} {k : Byte → Byte → State → State}
    (h : withOperands a b k (s.setPc (s.pc + 1)) = .next t) (ht : t.run = .running)
    (hk : ∀ x y u, (k x y u).pc = u.pc) : t.pc = s.pc + b.length := by
  obtain ⟨e, -, rfl⟩ | ⟨-, rfl⟩ := withOperands_next h
  · cases ht
  · rw [hk, State.setPc_pc, operandPc_of_fetched]

theorem branchIf_pc {c : Bool} (h : branchIf c (s.setPc (s.pc + 1)) = .next t) (ht : t.run = .running) :
    t.pc = (if c then some (s.mem.read (s.pc + 1)).toNat else none).getD (s.pc + 2) := by
  obtain ⟨-, rfl⟩ | rfl := branchIf_next h
  · cases c <;> rfl
  · cases ht

/-- An instruction that continues leaves `pc` at its transfer target, or else past its own bytes (R19, R61). -/
theorem exec_pc (h : exec i (s.setPc (s.pc + 1)) = .next t) (ht : t.run = .running) :
    t.pc = (transferTarget i s).getD (s.pc + i.length) := by
  cases i with
  | nop | jr | out | inp | rcf | scf => cases h; rfl
  | hlt => cases h; cases ht
  | jal =>
    obtain ⟨-, rfl⟩ | rfl := execJal_next h
    · rfl
    · cases ht
  | bbc0 | bbc1 | bbc2 | bbc3 | bbc4 | bbc5 | bbc6 | bbc7 => exact branchIf_pc h ht
  | bbc8 | bbc9 | bbc10 | bbc11 | bbc12 | bbc13 | bbc14 | bbc15 => exact branchIf_pc h ht
  | sra a | sla a | srl a | sll a | rra a | rla a | rrl a | rll a => cases h; exact State.setReg_pc ..
  | st a b =>
    obtain ⟨hd, m, rfl⟩ | ⟨r, n, rfl⟩ := execSt_next h
    · simp [transferTarget, Instr.length, hd]
    · cases ht
  | ld a b | sbc a b | adc a b | sub a b | add a b | eor a b | or a b | and a b | cmp a b =>
    obtain ⟨_, _, he, h⟩ := withOperands_of_exec h rfl nofun
    exact withOperands_pc h ht he.pc

/-! ## Nothing depends on the output value -/

theorem withOperands_withOutValue {a : Reg} {b : OperandB} {k : Byte → Byte → State → State} (v : Byte)
    (h : withOperands a b k s = .next t) (hk : ∀ x y u, k x y (u.withOutValue v) = (k x y u).withOutValue v) :
    withOperands a b k (s.withOutValue v) = .next (t.withOutValue v) := by
  have he : (s.withOutValue v).operandError b = s.operandError b := rfl
  rw [withOperands_eq, he]
  obtain ⟨e, hb, rfl⟩ | ⟨hb, rfl⟩ := withOperands_next h
  · rw [hb]; rfl
  · rw [hb]; exact congrArg Host.Outcome.next (hk _ _ (s.setPc _))

theorem branchIf_withOutValue {c : Bool} (v : Byte) (h : branchIf c s = .next t) :
    branchIf c (s.withOutValue v) = .next (t.withOutValue v) := by
  by_cases hp : s.pc < 512
  · rw [branchIf_of_lt c hp] at h
    cases h
    exact branchIf_of_lt c hp
  · rw [branchIf_of_ge c hp] at h
    cases h
    exact branchIf_of_ge c hp

theorem execJal_withOutValue (v : Byte) (h : execJal s = .next t) :
    execJal (s.withOutValue v) = .next (t.withOutValue v) := by
  by_cases hp : s.pc < 512
  · rw [execJal_of_lt hp] at h
    cases h
    exact execJal_of_lt hp
  · rw [execJal_of_ge hp] at h
    cases h
    exact execJal_of_ge hp

theorem execSt_withOutValue {a : Reg} {b : OperandB} (v : Byte) (h : execSt a b s = .next t) :
    execSt a b (s.withOutValue v) = .next (t.withOutValue v) := by
  cases hd : b.isStoreDest with
  | false =>
    rw [execSt_illegal_eq a hd] at h ⊢
    cases h
    rfl
  | true =>
    cases b with
    | mem m =>
      have he : (s.withOutValue v).operandError (.mem m) = s.operandError (.mem m) := rfl
      rw [execSt_mem_eq] at h ⊢
      rw [he]
      cases hb : s.operandError (.mem m) <;> rw [hb] at h <;> cases h <;> rfl
    | _ => cases hd

/-- Executing any instruction but OUT carries the output value along unread; OUT overwrites it. -/
theorem exec_withOutValue (v : Byte) (h : exec i s = .next t) :
    exec i (s.withOutValue v) = .next t ∨ exec i (s.withOutValue v) = .next (t.withOutValue v) := by
  cases i with
  | out => exact .inl h
  | nop | jr | hlt | inp | rcf | scf => cases h; exact .inr rfl
  | jal => exact .inr (execJal_withOutValue v h)
  | bbc0 | bbc1 | bbc2 | bbc3 | bbc4 | bbc5 | bbc6 | bbc7 => exact .inr (branchIf_withOutValue v h)
  | bbc8 | bbc9 | bbc10 | bbc11 | bbc12 | bbc13 | bbc14 | bbc15 => exact .inr (branchIf_withOutValue v h)
  | sra a | sla a | srl a | sll a | rra a | rla a | rrl a | rll a =>
    cases h; exact .inr (congrArg Host.Outcome.next (State.result_withOutValue ..))
  | st a b => exact .inr (execSt_withOutValue v h)
  | ld a b | sbc a b | adc a b | sub a b | add a b | eor a b | or a b | and a b | cmp a b =>
    obtain ⟨_, _, he, h⟩ := withOperands_of_exec h rfl nofun
    rw [he.answer]
    exact .inr (withOperands_withOutValue v h fun x y u => he.outValue x y u v)

theorem step_of_decode_error {e : DecodeError} (hr : s.run = .running) (hp : s.pc < 512)
    (hd : decodeOpcode (s.mem.read s.pc) = .error e) :
    step s = .next (raise s.pc (.unknownInstruction (s.mem.read s.pc)) (s.setPc (s.pc + 1))) := by
  rw [step_of_running hr, fetchDecode_of_error hp hd, Resolved.raised_andThen]

/-- A step, too, carries the output value along unread, unless it overwrites it. -/
theorem step_withOutValue (v : Byte) (h : step s = .next t) :
    step (s.withOutValue v) = .next t ∨ step (s.withOutValue v) = .next (t.withOutValue v) := by
  obtain ⟨hrun, ⟨hp, rfl⟩ | ⟨hp, ⟨e, he⟩, rfl⟩ | ⟨i, hp, hd, hexec⟩⟩ := step_cases h
  · exact .inr (step_of_pc_ge (s := s.withOutValue v) hrun hp)
  · exact .inr (step_of_decode_error (s := s.withOutValue v) hrun hp he)
  · rw [step_of_decode (s := s.withOutValue v) hrun hp hd]
    exact exec_withOutValue v hexec

end Sys2Proof.Machine

namespace Sys2Proof.Proofs

open Sys2Proof.Machine Sys2Proof.Claims

/-- Settles O14. A step is a failed opcode fetch, an unknown byte, or an instruction that halts or completes. -/
theorem stepKeepsTheInvariant : Obligations.StepKeepsTheInvariant :=
  fun _ _ => step_keeps_inv

/-- Settles O11, case by case over what a step can have done; an instruction's record carries one below its own `pc`, the
address of the opcode byte. -/
theorem diagnosticExactlyAtAnErrorHalt : Obligations.DiagnosticExactlyAtAnErrorHalt := by
  intro s t hstep
  obtain ⟨hrun, ⟨_, rfl⟩ | ⟨_, -, rfl⟩ | ⟨i, _, -, hexec⟩⟩ := step_cases hstep
  · rfl
  · rfl
  · obtain ⟨r, n, hx, rfl⟩ | ⟨-, rfl⟩ | hc := exec_next_cases hexec
    · simp [hx.isError]
    · rfl
    · rw [hc.run, hc.diag, State.setPc_run, hrun]; rfl

/-- Settles O13: the step executes the decoded instruction with `pc` one past its opcode byte, where `exec_pc` applies. -/
theorem programCounterAfterAStep : Obligations.ProgramCounterAfterAStep := by
  intro s t i hp hd hstep ht
  rw [step_of_decode (step_cases hstep).1 hp hd] at hstep
  exact exec_pc hstep ht

/-- Settles O16: loading changes only memory, and keeps it canonical. -/
theorem launchStatesMeetTheInvariant : Obligations.LaunchStatesMeetTheInvariant := by
  refine ⟨fun _ => State.inv_of_isLaunch, fun image entry he => State.isLaunch_iff.mpr ?_⟩
  have hl := State.load_eq image State.reset
  have hm := State.load_mem_wf image State.reset_mem_wf
  rw [State.launch, hl]
  exact ⟨hm, he, rfl, rfl⟩

/-- Settles O17: a launch state meets the invariant, and a run keeps it. -/
theorem everyScheduleKeepsTheInvariant : Obligations.EveryScheduleKeepsTheInvariant :=
  fun _ _ _ hs => runSchedule_keeps_inv (State.inv_of_isLaunch hs)

/-- Settles O48, by the frame of every instruction. -/
theorem registersChangeOnlyUnderTheirWriters : Obligations.RegistersChangeOnlyUnderTheirWriters :=
  fun _ _ _ r h => (exec_frame h).reg r

/-- Settles O49: the frame gives the rows marked "-", the halts keep every flag, and each constant is its family's. -/
theorem flagsChangeOnlyAsTabled : Obligations.FlagsChangeOnlyAsTabled := by
  intro i s t h
  obtain ⟨hcf, hvf, hnf, hzf⟩ := (exec_frame h).flags
  refine ⟨hcf, hvf, hnf, hzf, fun _ => flags_of_executeHalt h, fun hn => ⟨?_, ?_, ?_, ?_⟩⟩
  · rintro ⟨a, b, hi⟩; exact logic_vf hi h hn
  · rintro ⟨a, hi⟩; exact shift_vf hi h
  · rintro rfl; cases h; rfl
  · rintro rfl; cases h; rfl

/-- Settles O50: the frame leaves only IN and OUT, whose own effects are read off. -/
theorem buffersChangeOnlyUnderInAndOut : Obligations.BuffersChangeOnlyUnderInAndOut := by
  intro i s t h
  obtain ⟨-, -, hibuf, hobuf⟩ := exec_frame h
  by_cases hin : i = .inp
  · subst hin
    cases h
    exact ⟨rfl, nofun, hibuf, hobuf, id⟩
  · rw [hibuf hin]
    refine ⟨rfl, id, fun _ => rfl, hobuf, ?_⟩
    by_cases hout : i = .out
    · subst hout; cases h; exact fun _ => rfl
    · rw [hobuf hout]; exact id

/-- Settles O51, with the altered state as `State.withOutValue`. -/
theorem outputValueIsNeverRead : Obligations.OutputValueIsNeverRead :=
  fun _ _ => step_withOutValue

/-- Settles O8. -/
theorem noStepFromHalted : Obligations.NoStepFromHalted :=
  fun s _ h => ⟨step_of_halted h, fun a => (hostAct_run a s).trans h⟩

/-- Settles O15: the reset state is a launch state. -/
theorem resetMeetsTheInvariant : Obligations.ResetMeetsTheInvariant := State.inv_of_isLaunch rfl

/-- Settles O18. -/
theorem hostActionsWriteOnlyTheBuffers : Obligations.HostActionsWriteOnlyTheBuffers :=
  fun _ _ => ⟨rfl, rfl, rfl, rfl⟩

/-- Settles O45. -/
theorem outFillsTheOutputBuffer : Obligations.OutFillsTheOutputBuffer := by
  refine ⟨fun n hn => ?_, fun _ => rfl⟩
  interval_cases n <;> exact ⟨rfl, rfl⟩

/-- Settles O46. -/
theorem inReadsTheInputBuffer : Obligations.InReadsTheInputBuffer := by
  refine ⟨fun n hn => ?_, fun _ => rfl⟩
  interval_cases n <;> exact ⟨rfl, rfl⟩

end Sys2Proof.Proofs
end

section
/-! Memory and its operands: the canonical form is determined by its contents, only ST writes a cell, and the rule of an
instruction that reads operand B follows from its decoding and its effect. The statements about memory, the stores and the
logic instructions are assembled from these. -/

namespace Sys2Proof.Machine

open Sys2Proof.Claims

variable {i : Instr} {s t : State}

/-! ## The canonical form -/

@[simp] theorem Memory.read_cons_same (a : Nat) (v : Byte) (m : Memory) : Memory.read ((a, v) :: m) a = v := if_pos rfl

theorem Memory.read_cons_of_ne {a x : Nat} (h : a ≠ x) (v : Byte) (m : Memory) :
    Memory.read ((a, v) :: m) x = m.read x := if_neg h

/-- A canonical memory starts with its lowest cell that does not read as an unlisted one. -/
theorem Memory.head_le_of_read {a x : Nat} {v : Byte} {m : Memory} (hm : Memory.wf ((a, v) :: m) = true)
    (hx : Memory.read ((a, v) :: m) x ≠ Memory.unlisted) : a ≤ x := by
  obtain ⟨-, -, habove, -⟩ := Memory.wf_cons.mp hm
  by_contra hlt
  exact hx ((Memory.read_cons_of_ne (by omega) v m).trans (Memory.read_of_above habove (by omega)))

/-- Canonical memories that read alike are equal: their heads are the same cell, the lowest one that does not read as
unlisted, and their tails read alike because neither lists that cell again. -/
theorem Memory.eq_of_read_eq :
    ∀ {m n : Memory}, m.wf = true → n.wf = true → (∀ x, m.read x = n.read x) → m = n
  | [], [], _, _, _ => rfl
  | [], (b, w) :: n, _, hn, h => by
    obtain ⟨-, hw, -, -⟩ := Memory.wf_cons.mp hn
    exact absurd ((h b).trans (Memory.read_cons_same b w n)).symm hw
  | (a, v) :: m, [], hm, _, h => by
    obtain ⟨-, hv, -, -⟩ := Memory.wf_cons.mp hm
    exact absurd ((Memory.read_cons_same a v m).symm.trans (h a)) hv
  | (a, v) :: m, (b, w) :: n, hm, hn, h => by
    obtain ⟨-, hv, ham, hm'⟩ := Memory.wf_cons.mp hm
    obtain ⟨-, hw, hbn, hn'⟩ := Memory.wf_cons.mp hn
    obtain rfl : a = b := le_antisymm
      (Memory.head_le_of_read hm (by rwa [h, Memory.read_cons_same]))
      (Memory.head_le_of_read hn (by rwa [← h, Memory.read_cons_same]))
    obtain rfl : v = w := by simpa using h a
    have htail : ∀ x, Memory.read m x = Memory.read n x := by
      intro x
      by_cases hx : a = x
      · subst hx
        rw [Memory.read_of_above ham le_rfl, Memory.read_of_above hbn le_rfl]
      · simpa only [Memory.read_cons_of_ne hx] using h x
    rw [Memory.eq_of_read_eq hm' hn' htail]

/-! ## Stores -/

/-- A store whose address can be formed completes past its second word, and writes that cell (R72). -/
theorem exec_st_of_lt (a : Reg) {m : MemMode} (hp : s.pc < 512) (hm : s.memAddr m < 512) :
    exec (.st a (.mem m)) s = .next { s.setPc (s.pc + 1) with mem := s.mem.write (s.memAddr m) (s.reg a) } := by
  have h := execSt_mem_eq (s := s) a m
  rw [operandError_mem_of_lt hp hm] at h
  exact h

/-! ## What writes memory -/

theorem execLd_shape (a : Reg) (b : OperandB) :
    ∃ k, (∀ s, execLd a b s = withOperands a b k s) ∧ ∀ x y t, OnlyRegsAndFlags t (k x y t) :=
  ⟨fun _ y t => t.setReg a y, fun _ => rfl, fun _ _ t => onlyRegsAndFlags_setReg t t.flags a _⟩

/-- An instruction that reads operand B and has an effect on the registers and flags alone leaves memory as it was. -/
theorem mem_of_shape {a : Reg} {b : OperandB} {f : State → Result}
    (hf : ∃ k, (∀ s, f s = withOperands a b k s) ∧ ∀ x y t, OnlyRegsAndFlags t (k x y t)) (h : f s = .next t) :
    t.mem = s.mem := by
  obtain ⟨k, hk, honly⟩ := hf
  obtain ⟨e, -, rfl⟩ | ⟨-, rfl⟩ := withOperands_next ((hk s).symm.trans h)
  · rfl
  · rw [honly]; rfl

theorem branchIf_mem {c : Bool} (h : branchIf c s = .next t) : t.mem = s.mem := by
  obtain ⟨-, rfl⟩ | rfl := branchIf_next h <;> rfl

/-- An instruction other than ST leaves memory as it was (R37). -/
theorem exec_mem (h : exec i s = .next t) (hst : ∀ a b, i ≠ .st a b) : t.mem = s.mem := by
  cases i with
  | nop | jr | hlt | out | inp | rcf | scf => cases h; rfl
  | jal => obtain ⟨-, rfl⟩ | rfl := execJal_next h <;> rfl
  | bbc0 | bbc1 | bbc2 | bbc3 | bbc4 | bbc5 | bbc6 | bbc7 => exact branchIf_mem h
  | bbc8 | bbc9 | bbc10 | bbc11 | bbc12 | bbc13 | bbc14 | bbc15 => exact branchIf_mem h
  | sra a | sla a | srl a | sll a | rra a | rla a | rrl a | rll a => cases h; exact State.setReg_mem ..
  | st a b => exact absurd rfl (hst a b)
  | ld a b => exact mem_of_shape (execLd_shape a b) h
  | sbc a b => exact mem_of_shape (execSbc_shape a b) h
  | adc a b => exact mem_of_shape (execAdc_shape a b) h
  | sub a b => exact mem_of_shape (execSub_shape a b) h
  | add a b => exact mem_of_shape (execAdd_shape a b) h
  | eor a b => exact mem_of_shape (execEor_shape a b) h
  | or a b => exact mem_of_shape (execOr_shape a b) h
  | and a b => exact mem_of_shape (execAnd_shape a b) h
  | cmp a b => exact mem_of_shape (execCmp_shape a b) h

/-- No instruction changes the parameters (R6). -/
theorem exec_cfg (h : exec i s = .next t) : t.cfg = s.cfg := by
  obtain ⟨_, _, -, rfl⟩ | ⟨-, rfl⟩ | hc := exec_next_cases h
  · rfl
  · rfl
  · exact hc.cfg

/-! ## Branches -/

theorem exec_of_mem_branches (hi : i ∈ branches) (s : State) : ∃ c, exec i s = branchIf c s := by
  cases i with
  | bbc0 | bbc1 | bbc2 | bbc3 | bbc4 | bbc5 | bbc6 | bbc7 => exact ⟨_, rfl⟩
  | bbc8 | bbc9 | bbc10 | bbc11 | bbc12 | bbc13 | bbc14 | bbc15 => exact ⟨_, rfl⟩
  | _ => simp [branches] at hi

/-! ## The rule of an instruction that reads operand B -/

theorem operandField_lt (a : Reg) (b : OperandB) : 8 * a.number + b.number < 2 ^ 4 := by
  cases a <;> rcases b with _ | _ | _ | _ | (_ | _ | _ | _) <;> decide

theorem operandField_eq (a : Reg) (b : OperandB) :
    a.field ||| b.field = BitVec.ofNat 8 (8 * a.number + b.number) := by
  cases a <;> rcases b with _ | _ | _ | _ | (_ | _ | _ | _) <;> rfl

/-- The byte of format AB, read as a number: class, operand A and operand B stand in disjoint bits (R53-R56). -/
theorem encodeAB_eq_ofNat (cls : Nat) (a : Reg) (b : OperandB) :
    encodeAB (BitVec.ofNat 8 (cls * 16)) a b = BitVec.ofNat 8 (cls * 16 + 8 * a.number + b.number) := by
  have hor : cls * 16 ||| (8 * a.number + b.number) = cls * 16 + 8 * a.number + b.number := by
    rw [Nat.add_assoc, Nat.mul_comm cls 16, ← Nat.two_pow_add_eq_or_of_lt (operandField_lt a b)]
  rw [encodeAB, BitVec.or_assoc, operandField_eq, ← BitVec.ofNat_or, hor]

/-- An instruction that decodes from class `cls` and is `withOperands` over `k` obeys the operand rule of the effect that `k`
has when it is given the register's own value. -/
theorem operandRule_of_withOperands {cls : Nat} {ins : Reg → OperandB → Instr} {effect : Reg → Byte → State → State}
    (k : Reg → Byte → Byte → State → State)
    (hd : ∀ a b, decodeOpcode (encodeAB (BitVec.ofNat 8 (cls * 16)) a b) = .ok (ins a b))
    (hx : ∀ a b s, exec (ins a b) s = withOperands a b (k a) s)
    (hk : ∀ a y u, k a (u.reg a) y u = effect a y u) : OperandRule cls ins effect := by
  intro a b s
  refine ⟨encodeAB_eq_ofNat cls a b ▸ hd a b, ?_⟩
  rw [hx, withOperands_eq]
  cases s.operandError b with
  | some e => rfl
  | none => exact congrArg Host.Outcome.next (by rw [← hk, State.setPc_reg])

theorem logicFlags_eq (f : Flags) (r : Byte) : logicFlags f r = logicResultFlags f r := by
  simp only [logicFlags, logicResultFlags, resultFlags, getLsbD7_eq, ← BitVec.toNat_inj, BitVec.toNat_ofNat, Nat.zero_mod]

/-- AND, OR and EOR share one rule, over the bitwise operation `f` (R79-R81). -/
theorem operandRule_of_logic {cls : Nat} {ins : Reg → OperandB → Instr} (f : Byte → Byte → Byte)
    (hd : ∀ a b, decodeOpcode (encodeAB (BitVec.ofNat 8 (cls * 16)) a b) = .ok (ins a b))
    (hx : ∀ a b s, exec (ins a b) s =
      withOperands a b (fun x y t => (t.setFlags (logicFlags t.flags (f x y))).setReg a (f x y)) s) :
    OperandRule cls ins
      (fun a y s => (s.setFlags (logicResultFlags s.flags (f (s.reg a) y))).setReg a (f (s.reg a) y)) :=
  operandRule_of_withOperands _ hd hx fun _ _ _ => by rw [logicFlags_eq]

end Sys2Proof.Machine

namespace Sys2Proof.Proofs

open Sys2Proof.Machine Sys2Proof.Claims

/-- Settles O20. -/
theorem canonicalMemoriesWithEqualContentsAreEqual : Obligations.CanonicalMemoriesWithEqualContentsAreEqual :=
  fun _ _ => Memory.eq_of_read_eq

/-- Settles O26: the store completes with `pc` on the cell it wrote, so the next step decodes the byte stored there. -/
theorem storedByteIsTheNextInstruction : Obligations.StoredByteIsTheNextInstruction := by
  intro s a m i hr hwf hp hd haddr hi
  have hstore := exec_st_of_lt (s := s.setPc (s.pc + 1)) a (Nat.lt_of_succ_lt hp) (haddr.trans_lt hp)
  rw [haddr, State.setPc_reg] at hstore
  refine ⟨_, (step_of_decode hr (by omega) hd).trans hstore, rfl, ?_⟩
  have hread : (s.mem.write (s.pc + 2) (s.reg a)).read (s.pc + 2) = s.reg a := Memory.read_write_same _ _ hwf
  exact step_of_decode hr hp ((congrArg decodeOpcode hread).trans hi)

/-- Settles O32. -/
theorem andKeepsCarryAndClearsOverflow : Obligations.AndKeepsCarryAndClearsOverflow :=
  operandRule_of_logic (· &&& ·) Laws.RoundTrip.and fun _ _ _ => rfl

/-- Settles O33. -/
theorem orKeepsCarryAndClearsOverflow : Obligations.OrKeepsCarryAndClearsOverflow :=
  operandRule_of_logic (· ||| ·) Laws.RoundTrip.or fun _ _ _ => rfl

/-- Settles O34. -/
theorem eorKeepsCarryAndClearsOverflow : Obligations.EorKeepsCarryAndClearsOverflow :=
  operandRule_of_logic (· ^^^ ·) Laws.RoundTrip.eor fun _ _ _ => rfl

/-- Settles O47. -/
theorem onlyStoresWriteMemory : Obligations.OnlyStoresWriteMemory :=
  fun _ _ _ h => ⟨exec_cfg h, fun hst x => congrArg (Memory.read · x) (exec_mem h hst)⟩

/-- Settles O21: selectors 4, 5 and 6 stay inside the array, and selector 7 is checked. -/
theorem effectiveAddressFormula : Obligations.EffectiveAddressFormula := by
  intro op d s
  have inside : ∀ m, m ≠ .dataIdx → ea op m d s = .ok (effAddr m s.ix d) s :=
    fun _ hm => ea_of_lt op (effAddr_lt_of_ne hm _ _)
  refine ⟨inside .progAbs nofun, inside .dataAbs nofun, inside .progIdx nofun, ?_⟩
  split
  · exact ea_of_lt op ‹_›
  · exact ea_of_ge op ‹_›

/-- Settles O54: a branch whose target can be fetched moves `pc` alone, and one whose target cannot halts. -/
theorem ioAccessesHaveExactlyTheirSideEffects : Obligations.IoAccessesHaveExactlyTheirSideEffects := by
  refine fun s => ⟨rfl, rfl, fun i hi => ?_⟩
  obtain ⟨c, hc⟩ := exec_of_mem_branches hi s
  by_cases hp : s.pc < 512
  · exact ⟨_, hc.trans (branchIf_of_lt c hp), rfl, rfl, fun _ => rfl⟩
  · exact ⟨_, hc.trans (branchIf_of_ge c hp), rfl, rfl, fun h => absurd h hp⟩

end Sys2Proof.Proofs
end

section
/-! The encoding: the decoder reads back what the encoder writes, and the opcode map of R58 read by numbers. The statements
about the wire format, the opcode map and the bytes that halt or do nothing are assembled from these. -/

namespace Sys2Proof.Machine

open Sys2Proof.Claims

variable {i : Instr} {x : Byte} {a : Reg} {b : OperandB} {n : Nat}

/-! ## Round trip (R57, R65) -/

/-- The decoder reads back the opcode byte of every instruction. -/
theorem decodeOpcode_opcodeByte (i : Instr) : decodeOpcode (opcodeByte i) = .ok i := by
  cases i with
  | nop | jal | jr | hlt | out | inp | rcf | scf => rfl
  | bbc0 | bbc1 | bbc2 | bbc3 | bbc4 | bbc5 | bbc6 | bbc7 => rfl
  | bbc8 | bbc9 | bbc10 | bbc11 | bbc12 | bbc13 | bbc14 | bbc15 => rfl
  | sra a => exact Laws.RoundTrip.sra a
  | sla a => exact Laws.RoundTrip.sla a
  | srl a => exact Laws.RoundTrip.srl a
  | sll a => exact Laws.RoundTrip.sll a
  | rra a => exact Laws.RoundTrip.rra a
  | rla a => exact Laws.RoundTrip.rla a
  | rrl a => exact Laws.RoundTrip.rrl a
  | rll a => exact Laws.RoundTrip.rll a
  | ld a b => exact Laws.RoundTrip.ld a b
  | st a b => exact Laws.RoundTrip.st a b
  | sbc a b => exact Laws.RoundTrip.sbc a b
  | adc a b => exact Laws.RoundTrip.adc a b
  | sub a b => exact Laws.RoundTrip.sub a b
  | add a b => exact Laws.RoundTrip.add a b
  | eor a b => exact Laws.RoundTrip.eor a b
  | or a b => exact Laws.RoundTrip.or a b
  | and a b => exact Laws.RoundTrip.and a b
  | cmp a b => exact Laws.RoundTrip.cmp a b

theorem decodeBytes_of_length_two (hd : decodeOpcode x = .ok i) (hl : i.length = 2) (d : Byte) (rest : List Byte) :
    decodeBytes (x :: d :: rest) = .ok (⟨i, some d⟩, rest) := by
  simp only [decodeBytes, hd, if_pos hl]

theorem decodeBytes_of_length_ne_two (hd : decodeOpcode x = .ok i) (hl : i.length ≠ 2) (rest : List Byte) :
    decodeBytes (x :: rest) = .ok (⟨i, none⟩, rest) := by
  simp only [decodeBytes, hd, if_neg hl]

/-- Reading the words of an instruction gives it back, with its second word and what follows it (R52, R61). -/
theorem decodeBytes_encode (i : Instr) (d : Byte) (rest : List Byte) :
    decodeBytes (encode i d ++ rest) = .ok (⟨i, if i.length = 2 then some d else none⟩, rest) := by
  have hd := decodeOpcode_opcodeByte i
  by_cases hl : i.length = 2
  · rw [encode, if_pos hl, if_pos hl]
    exact decodeBytes_of_length_two hd hl d rest
  · rw [encode, if_neg hl, if_neg hl]
    exact decodeBytes_of_length_ne_two hd hl rest

/-! ## The opcode map, by the number of the byte (R58) -/

theorem decodeOpcode_of_names {l : Nat} (h : Names x.toNat i l) : decodeOpcode x = .ok i := by
  simpa using h.1

theorem names_nop (h : n < 8) : Names n .nop 1 := by
  interval_cases n <;> exact ⟨rfl, rfl⟩

theorem names_hlt (hge : 0x0C ≤ n) (hle : n ≤ 0x0F) : Names n .hlt 1 := by
  interval_cases n <;> exact ⟨rfl, rfl⟩

theorem names_rcf (h : n < 8) : Names (0x20 + n) .rcf 1 := by
  interval_cases n <;> exact ⟨rfl, rfl⟩

theorem names_scf (h : n < 8) : Names (0x28 + n) .scf 1 := by
  interval_cases n <;> exact ⟨rfl, rfl⟩

/-- The bytes that spell no instruction (R59): two of class 0x0, and the whole of class 0x5. -/
theorem decodeOpcode_unknown (h : n = 0x08 ∨ n = 0x09 ∨ (0x50 ≤ n ∧ n ≤ 0x5F)) :
    decodeOpcode (BitVec.ofNat 8 n) = .error (.unknownInstruction (BitVec.ofNat 8 n)) := by
  obtain rfl | rfl | ⟨hge, hle⟩ := h
  · rfl
  · rfl
  · interval_cases n <;> rfl

/-- The byte of format SH, read as a number (R53, R54, R56). -/
theorem encodeSH_eq_ofNat {mode : Nat} (hm : mode < 8) (a : Reg) :
    encodeSH (BitVec.ofNat 8 mode) a = BitVec.ofNat 8 (0x40 + 8 * a.number + mode) := by
  cases a <;> interval_cases mode <;> rfl

theorem names_of_encodeSH {mode l : Nat} (hm : mode < 8)
    (hd : decodeOpcode (encodeSH (BitVec.ofNat 8 mode) a) = .ok i) (hl : i.length = l) :
    Names (0x40 + 8 * a.number + mode) i l :=
  ⟨encodeSH_eq_ofNat hm a ▸ hd, hl⟩

theorem names_of_encodeAB {cls l : Nat}
    (hd : decodeOpcode (encodeAB (BitVec.ofNat 8 (cls * 16)) a b) = .ok i) (hl : i.length = l) :
    Names (cls * 16 + 8 * a.number + b.number) i l :=
  ⟨encodeAB_eq_ofNat cls a b ▸ hd, hl⟩

/-- Only the two register operands have no second word (R68). -/
theorem operandLength_eq (b : OperandB) : b.length = if b = .acc ∨ b = .ix then 1 else 2 := by
  cases b <;> rfl

/-- A class of format AB whose instructions are as long as their operand says is one line of R58's table. -/
theorem namesAB_of_encodeAB {cls : Nat} {ins : Reg → OperandB → Instr}
    (hd : ∀ a b, decodeOpcode (encodeAB (BitVec.ofNat 8 (cls * 16)) a b) = .ok (ins a b))
    (hl : ∀ a b, (ins a b).length = b.length) : NamesAB cls ins :=
  fun a b => names_of_encodeAB (hd a b) ((hl a b).trans (operandLength_eq b))

/-! ## The ST bytes with an illegal destination (R70) -/

theorem isStoreDest_eq (b : OperandB) : b.isStoreDest = decide (4 ≤ b.number) := by
  rcases b with _ | _ | _ | _ | (_ | _ | _ | _) <;> rfl

theorem isStoreDest_eq_false_iff : b.isStoreDest = false ↔ b.number < 4 := by
  simp [isStoreDest_eq]

theorem stLength_eq (a : Reg) (b : OperandB) : (Instr.st a b).length = if 4 ≤ b.number then 2 else 1 := by
  simp [Instr.length, isStoreDest_eq]

theorem opcodeByte_st_eq_ofNat (a : Reg) (b : OperandB) :
    opcodeByte (.st a b) = BitVec.ofNat 8 (0x70 + 8 * a.number + b.number) :=
  encodeAB_eq_ofNat 0x7 a b

theorem exists_operandB_of_number_lt (h : n < 4) : ∃ b : OperandB, b.number = n := by
  interval_cases n
  · exact ⟨.acc, rfl⟩
  · exact ⟨.ix, rfl⟩
  · exact ⟨.imm, rfl⟩
  · exact ⟨.immFolded, rfl⟩

/-- A byte in one of the two illegal ST ranges is the opcode byte of an ST to a register or an immediate. -/
theorem exists_illegalSt_of_byte
    (h : (0x70 ≤ x.toNat ∧ x.toNat ≤ 0x73) ∨ (0x78 ≤ x.toNat ∧ x.toNat ≤ 0x7B)) :
    ∃ a b, b.isStoreDest = false ∧ x = opcodeByte (.st a b) := by
  obtain ⟨a, ha⟩ : ∃ a : Reg, 0x70 + 8 * a.number ≤ x.toNat ∧ x.toNat < 0x70 + 8 * a.number + 4 := by
    obtain h | h := h
    · exact ⟨.acc, by simp only [Reg.number]; omega⟩
    · exact ⟨.ix, by simp only [Reg.number]; omega⟩
  obtain ⟨b, hb⟩ := exists_operandB_of_number_lt (n := x.toNat - (0x70 + 8 * a.number)) (by omega)
  refine ⟨a, b, isStoreDest_eq_false_iff.mpr (by omega), ?_⟩
  rw [opcodeByte_st_eq_ofNat, hb, Nat.add_sub_cancel' ha.1, BitVec.ofNat_toNat, BitVec.setWidth_eq]

end Sys2Proof.Machine

namespace Sys2Proof.Proofs

open Sys2Proof.Machine Sys2Proof.Claims

/-! ## Obligations -/

/-- Settles O1: the opcode byte is read back, and the second word where the length is two. -/
theorem decodeReadsBackEveryEncodedInstruction : Obligations.DecodeReadsBackEveryEncodedInstruction :=
  decodeBytes_encode

/-- Settles O2, row by row: the formats SH and AB through the numbers of their fields, the rest byte by byte. -/
theorem opcodeMapNamesEveryByte : Obligations.OpcodeMapNamesEveryByte := by
  refine ⟨fun n => names_nop, fun n => decodeOpcode_unknown, ⟨rfl, rfl⟩, ⟨rfl, rfl⟩,
    fun n hn => names_hlt (by omega) (by omega),
    fun n hn => ⟨outFillsTheOutputBuffer.1 n hn, inReadsTheInputBuffer.1 n hn⟩,
    fun n hn => ⟨names_rcf hn, names_scf hn⟩, ?branches, ?shifts,
    namesAB_of_encodeAB Laws.RoundTrip.ld fun _ _ => rfl,
    fun a b => names_of_encodeAB (cls := 0x7) (Laws.RoundTrip.st a b) (stLength_eq a b), ?illegal,
    namesAB_of_encodeAB Laws.RoundTrip.sbc fun _ _ => rfl, namesAB_of_encodeAB Laws.RoundTrip.adc fun _ _ => rfl,
    namesAB_of_encodeAB Laws.RoundTrip.sub fun _ _ => rfl, namesAB_of_encodeAB Laws.RoundTrip.add fun _ _ => rfl,
    namesAB_of_encodeAB Laws.RoundTrip.eor fun _ _ => rfl, namesAB_of_encodeAB Laws.RoundTrip.or fun _ _ => rfl,
    namesAB_of_encodeAB Laws.RoundTrip.and fun _ _ => rfl, namesAB_of_encodeAB Laws.RoundTrip.cmp fun _ _ => rfl⟩
  case branches =>
    refine ⟨?_, ?_, ?_, ?_, ?_, ?_, ?_, ?_, ?_, ?_, ?_, ?_, ?_, ?_, ?_, ?_⟩ <;> exact ⟨rfl, rfl⟩
  case shifts =>
    intro a
    exact ⟨names_of_encodeSH (by decide) (Laws.RoundTrip.sra a) rfl,
      names_of_encodeSH (by decide) (Laws.RoundTrip.sla a) rfl,
      names_of_encodeSH (by decide) (Laws.RoundTrip.srl a) rfl,
      names_of_encodeSH (by decide) (Laws.RoundTrip.sll a) rfl,
      names_of_encodeSH (by decide) (Laws.RoundTrip.rra a) rfl,
      names_of_encodeSH (by decide) (Laws.RoundTrip.rla a) rfl,
      names_of_encodeSH (by decide) (Laws.RoundTrip.rrl a) rfl,
      names_of_encodeSH (by decide) (Laws.RoundTrip.rll a) rfl⟩
  case illegal =>
    intro a b s hb
    exact ⟨_, execSt_illegal_eq a (isStoreDest_eq_false_iff.mpr hb),
      congrArg (RunState.halted ∘ HaltReason.illegalOperand) (opcodeByte_st_eq_ofNat a b)⟩

/-- Settles O3, by computing the decoder on each word. -/
theorem sampleWordsDecode : Obligations.SampleWordsDecode :=
  ⟨rfl, rfl, rfl, rfl, rfl, rfl, rfl, rfl, rfl, rfl, rfl⟩

/-- Settles O5: the decoder refuses the byte after its fetch. -/
theorem unknownOpcodeHaltsOnePastTheByte : Obligations.UnknownOpcodeHaltsOnePastTheByte := by
  intro s hr hp hb
  have hn : (s.mem.read s.pc).toNat = 0x08 ∨ (s.mem.read s.pc).toNat = 0x09 ∨
      (0x50 ≤ (s.mem.read s.pc).toNat ∧ (s.mem.read s.pc).toNat ≤ 0x5F) :=
    hb.imp (congrArg BitVec.toNat) (Or.imp_left (congrArg BitVec.toNat))
  have hd := decodeOpcode_unknown hn
  rw [BitVec.ofNat_toNat, BitVec.setWidth_eq] at hd
  exact step_of_decode_error hr hp hd

/-- Settles O6: the byte is that of an ST with an illegal destination, which halts with it and fetches nothing more. -/
theorem storeToRegisterOrImmediateHalts : Obligations.StoreToRegisterOrImmediateHalts := by
  intro s hr hp hb
  obtain ⟨a, b, hdest, hbyte⟩ := exists_illegalSt_of_byte hb
  have hd : decodeOpcode (s.mem.read s.pc) = .ok (.st a b) := hbyte ▸ Laws.RoundTrip.st a b
  rw [step_of_decode hr hp hd, hbyte]
  exact execSt_illegal_eq a hdest

/-- Settles O42. -/
theorem nopOnlyAdvances : Obligations.NopOnlyAdvances :=
  fun _ => ⟨rfl, fun hr hp hb => step_of_decode hr hp (decodeOpcode_of_names (names_nop hb))⟩

/-- Settles O43. -/
theorem hltHaltsWithoutADiagnostic : Obligations.HltHaltsWithoutADiagnostic :=
  fun _ => ⟨rfl, fun hr hp hge hle => step_of_decode hr hp (decodeOpcode_of_names (names_hlt hge hle))⟩

end Sys2Proof.Proofs
end

section
/-! Loads and stores: what LD and ST answer where their operand can be resolved and where it cannot, and what the cell a
store writes reads as afterwards. The statements about LD and ST are assembled from these. -/

namespace Sys2Proof.Machine

variable {s : State} {m : MemMode} {b : OperandB} {e : Nat}

/-- A load whose operand can be resolved completes past it, with the operand's value in the register (R71). -/
theorem exec_ld_of_operandError_none (a : Reg) (h : s.operandError b = none) :
    exec (.ld a b) s = .next ((s.setPc (s.operandPc b)).setReg a (s.operandValue b)) := by
  have hx := execLd_eq (s := s) a b
  rw [h] at hx
  exact hx

/-- A store whose address cannot be formed halts and writes nothing (R110). -/
theorem exec_st_of_operandError_some (a : Reg) (h : s.operandError (.mem m) = some e) :
    exec (.st a (.mem m)) s = .next (s.operandHalt e) := by
  have hx := execSt_mem_eq (s := s) a m
  rw [h] at hx
  exact hx

theorem State.memAddr_dataAbs (s : State) : s.memAddr .dataAbs = 0x100 + s.secondWord.toNat := effAddr_dataAbs ..

/-- An absolute-data address needs no check (R35). -/
theorem State.memAddr_dataAbs_lt (s : State) : s.memAddr .dataAbs < 512 := effAddr_lt_of_ne (m := .dataAbs) nofun _ _

end Sys2Proof.Machine

namespace Sys2Proof.Proofs

open Sys2Proof.Machine Sys2Proof.Claims

/-- Settles O23. -/
theorem loadWritesTheOperandValue : Obligations.LoadWritesTheOperandValue :=
  operandRule_of_withOperands (fun a _ y t => t.setReg a y) Laws.RoundTrip.ld (fun _ _ _ => rfl) fun _ _ _ => rfl

/-- Settles O24: a completing store is one write of memory, whose other cells read as before; the other cases halt. -/
theorem storeWritesOnlyTheAddressedCell : Obligations.StoreWritesOnlyTheAddressedCell := by
  intro a b s
  have hbyte := opcodeByte_st_eq_ofNat a b
  refine ⟨hbyte ▸ Laws.RoundTrip.st a b, ?stores, ?outOfRange, ?illegal⟩
  case stores =>
    rintro m rfl hnone hwf
    obtain ⟨hp, hm⟩ := State.memAddr_lt hnone
    exact ⟨_, exec_st_of_lt a hp hm, Memory.read_write_same _ _ hwf,
      fun x hx => Memory.read_write_of_ne hx _ _, rfl⟩
  case outOfRange =>
    rintro m e rfl
    exact exec_st_of_operandError_some a
  case illegal =>
    intro hb
    rw [← hbyte]
    exact execSt_illegal_eq a (isStoreDest_eq_false_iff.mpr hb)

/-- Settles O25: the same second word names the same absolute-data cell, and the load reads there what the store wrote. -/
theorem storeThenLoadReturnsTheValue : Obligations.StoreThenLoadReturnsTheValue := by
  intro a a' s hwf hp
  refine ⟨_, exec_st_of_lt a hp s.memAddr_dataAbs_lt, fun s' hmem hp' hd => ?_⟩
  have haddr : s'.memAddr .dataAbs = s.memAddr .dataAbs := by
    rw [State.memAddr_dataAbs, State.memAddr_dataAbs, hd]
  have hnone := operandError_mem_of_lt hp' s'.memAddr_dataAbs_lt
  have hvalue : s'.operandValue (.mem .dataAbs) = s.reg a := by
    rw [State.operandValue, haddr, hmem]
    exact Memory.read_write_same _ _ hwf
  exact ⟨_, exec_ld_of_operandError_none a' hnone, (State.reg_setReg_same ..).trans hvalue⟩

end Sys2Proof.Proofs
end

section
/-! The ALU's additions and subtractions (R73-R78): what the flag derivations of R73 say of a sum, as statements about the
exact signed and unsigned result. A subtraction is the addition of `Neg8(b)`, the byte `-b`, whose signed value is `-b`
except at b = 0x80: from that one exception, and from the borrow that takes a sum below zero, come the corner cases of R76
and R77. -/

namespace Sys2Proof.Machine

open Sys2Proof.Claims

/-! ## Results and their NF and ZF -/

/-- NF and ZF of a sum are those of its low byte (R73). -/
theorem flags_eq_resultFlags (cf vf : Bool) (n : Nat) :
    ({ cf := cf, vf := vf, nf := negOf n, zf := zeroOf n } : Flags) = resultFlags cf vf (n % 256) := by
  rw [negOf_eq]; rfl

theorem neg8_toNat (y : Byte) : neg8 y.toNat = (-y).toNat := (BitVec.toNat_neg y).symm

theorem ofNat_toNat_add_toNat (x z : Byte) : BitVec.ofNat 8 (x.toNat + z.toNat) = x + z := by
  rw [BitVec.ofNat_add, BitVec.ofNat_toNat, BitVec.ofNat_toNat, BitVec.setWidth_eq, BitVec.setWidth_eq]

/-! ## Overflow of a sum -/

theorem overflowV_eq_decide (a b s : Nat) :
    overflowV a b s = decide ((128 ≤ a % 256 ∧ 128 ≤ b % 256 ∧ s % 256 < 128) ∨
      (a % 256 < 128 ∧ b % 256 < 128 ∧ 128 ≤ s % 256)) := by
  simp only [overflowV_eq, Bool.decide_or, Bool.decide_and, ← not_le, decide_not, Bool.and_assoc]

/-- `V` of a sum of two bytes and a carry is its exact signed overflow (R73, R75). -/
theorem overflowV_add (x z : Byte) (c : Bool) :
    overflowV x.toNat z.toNat (x.toNat + z.toNat + c.toNat) = signedOverflow (x.toInt + z.toInt + c.toNat) := by
  have hx := x.isLt
  have hz := z.isLt
  have hc := c.toNat_le
  rw [overflowV_eq_decide, signedOverflow, toInt_eq, toInt_eq]
  exact decide_eq_decide.mpr (by omega)

theorem overflowV_add_zero (x z : Byte) :
    overflowV x.toNat z.toNat (x.toNat + z.toNat) = signedOverflow (x.toInt + z.toInt) := by
  simpa using overflowV_add x z false

/-! ## The byte that is subtracted -/

theorem signedOverflow_sub_128 {n : Int} (hlo : -256 ≤ n) (hhi : n < 256) :
    signedOverflow (n - 128) = !signedOverflow (n + 128) := by
  rw [signedOverflow, signedOverflow, ← decide_not]
  exact decide_eq_decide.mpr (by omega)

/-- Adding `-b` overflows where subtracting `b` does, except at b = 0x80, which is its own negative (R73). -/
theorem signedOverflow_add_neg (x y : Byte) (c : Bool) :
    signedOverflow (x.toInt + (-y).toInt - c.toNat) =
      (signedOverflow (x.toInt - y.toInt - c.toNat) ^^ decide (y = 0x80#8)) := by
  by_cases hy : y = 0x80#8
  · subst hy
    have hx := toInt_eq x
    have hc := c.toNat_le
    have hneg : (-0x80#8 : Byte).toInt = -128 := rfl
    have hpos : (0x80#8 : Byte).toInt = -128 := rfl
    have hadd : x.toInt + -128 - c.toNat = x.toInt - c.toNat - 128 := by ring
    have hsub : x.toInt - -128 - c.toNat = x.toInt - c.toNat + 128 := by ring
    rw [hneg, hpos, hadd, hsub, decide_eq_true rfl, Bool.xor_true, signedOverflow_sub_128 (by omega) (by omega)]
  · have hneg : (-y).toInt = -y.toInt := BitVec.toInt_neg_of_ne_intMin hy
    rw [hneg, decide_eq_false hy, Bool.xor_false, ← Int.sub_eq_add_neg]

/-- VF of a subtraction without borrow, as the overflow of adding `-b` (R76). -/
theorem signedOverflow_add_neg_eq_subVf (x y : Byte) : signedOverflow (x.toInt + (-y).toInt) = subVf x y := by
  by_cases hy : y = 0x80#8
  · subst hy
    have hx := toInt_eq x
    have hneg : (-0x80#8 : Byte).toInt = -128 := rfl
    rw [subVf, if_pos rfl, signedOverflow, hneg]
    exact decide_eq_decide.mpr (by omega)
  · have hneg : (-y).toInt = -y.toInt := BitVec.toInt_neg_of_ne_intMin hy
    rw [subVf, if_neg hy, hneg, ← Int.sub_eq_add_neg]

/-! ## SUB and CMP (R76, R78) -/

theorem add_neg8_mod (x y : Byte) : (x.toNat + neg8 y.toNat) % 256 = (x.toNat + 256 - y.toNat) % 256 := by
  have hy := y.isLt
  rw [neg8]
  omega

theorem subFlags_eq (f : Flags) (x y : Byte) : subFlags f x.toNat y.toNat = subtractionFlags f x y := by
  have hv : overflowV x.toNat (neg8 y.toNat) (x.toNat + neg8 y.toNat) = subVf x y := by
    rw [neg8_toNat, overflowV_add_zero, signedOverflow_add_neg_eq_subVf]
  rw [subtractionFlags, ← add_neg8_mod, ← flags_eq_resultFlags, ← hv]
  rfl

theorem ofNat_add_neg8 (x y : Byte) : BitVec.ofNat 8 (x.toNat + neg8 y.toNat) = x - y := by
  rw [neg8_toNat, ofNat_toNat_add_toNat, BitVec.sub_eq_add_neg]

/-! ## SBC (R77) -/

/-- The sum of R77, reduced modulo 512. -/
def sbcSum (x y : Byte) (c : Bool) : Nat := (x.toNat + neg8 y.toNat + 512 - c.toNat) % 512

theorem execSbc_eq (a : Reg) (b : OperandB) (s : State) :
    execSbc a b s = withOperands a b (fun x y t =>
      (t.setFlags { cf := !carryOut (sbcSum x y t.flags.cf), vf := overflowV x.toNat (neg8 y.toNat) (sbcSum x y t.flags.cf),
                    nf := negOf (sbcSum x y t.flags.cf), zf := zeroOf (sbcSum x y t.flags.cf) }).setReg a
        (BitVec.ofNat 8 (sbcSum x y t.flags.cf))) s := rfl

theorem sbcSum_mod (x y : Byte) (c : Bool) :
    sbcSum x y c % 256 = (x.toNat + 512 - y.toNat - c.toNat) % 256 := by
  have hy := y.isLt
  have hc := c.toNat_le
  rw [sbcSum, neg8]
  omega

theorem sbcSum_lt (x y : Byte) (c : Bool) : sbcSum x y c < 512 := Nat.mod_lt _ (by decide)

/-- SBC's CF is the borrow, except that b = 0 adds no 256 which the borrow could take away (R77, decision D8). -/
theorem not_carryOut_sbcSum (x y : Byte) (c : Bool) : (!carryOut (sbcSum x y c)) = sbcCf x y c := by
  have hx := x.isLt
  have hy := y.isLt
  have hc := c.toNat_le
  rw [carryOut_eq (sbcSum_lt x y c), sbcSum, neg8_eq hy, sbcCf]
  by_cases h0 : y = 0x00#8
  · have hzero : y.toNat = 0 := congrArg BitVec.toNat h0
    have hborrow : (decide (x = 0x00#8) && c) = decide (x.toNat = 0 ∧ c.toNat = 1) := by
      simp [← BitVec.toNat_inj]
    rw [if_pos h0, if_pos hzero, hborrow, ← decide_not, ← decide_not]
    exact decide_eq_decide.mpr (by omega)
  · have hpos : y.toNat ≠ 0 := fun h => h0 (BitVec.eq_of_toNat_eq h)
    rw [if_neg h0, if_neg hpos, ← decide_not]
    exact decide_eq_decide.mpr (by omega)

/-- The two bytes that are their own negatives, 0x00 and 0x80. -/
def isOwnNegative (x : Byte) : Bool := decide (x = 0x00#8 ∨ x = 0x80#8)

theorem isOwnNegative_eq (x : Byte) : isOwnNegative x = decide (x.toNat = 0 ∨ x.toNat = 128) := by
  simp [isOwnNegative, ← BitVec.toNat_inj]

theorem isOwnNegative_neg (y : Byte) : isOwnNegative (-y) = isOwnNegative y := by
  have hy := y.isLt
  rw [isOwnNegative_eq, isOwnNegative_eq, BitVec.toNat_neg]
  exact decide_eq_decide.mpr (by omega)

/-- Taking a borrow from a sum keeps `V` its exact signed overflow, unless both bytes are 0x00 or 0x80: 0 - 1 is taken for
an overflow, and the overflows of -128 - 1 and -256 - 1 are missed. -/
theorem overflowV_borrow (x z : Byte) :
    overflowV x.toNat z.toNat ((x.toNat + z.toNat + 511) % 512) =
      (signedOverflow (x.toInt + z.toInt - 1) ^^ (isOwnNegative x && isOwnNegative z)) := by
  have hx := x.isLt
  have hz := z.isLt
  rw [overflowV_eq_decide, signedOverflow, toInt_eq, toInt_eq, isOwnNegative_eq, isOwnNegative_eq, ← Bool.decide_and]
  by_cases he : (x.toNat = 0 ∨ x.toNat = 128) ∧ (z.toNat = 0 ∨ z.toNat = 128)
  · rw [decide_eq_true he, Bool.xor_true, ← decide_not]
    exact decide_eq_decide.mpr (by omega)
  · rw [decide_eq_false he, Bool.xor_false]
    exact decide_eq_decide.mpr (by omega)

/-- The overflow of SBC, as that of adding `-b` and taking the borrow. -/
theorem overflowV_sbcSum (x y : Byte) (c : Bool) :
    overflowV x.toNat (neg8 y.toNat) (sbcSum x y c) =
      (signedOverflow (x.toInt + (-y).toInt - c.toNat) ^^ (c && (isOwnNegative x && isOwnNegative y))) := by
  cases c with
  | false =>
    have hsum : sbcSum x y false = x.toNat + (-y).toNat := by
      have hx := x.isLt
      have hz := (-y).isLt
      rw [sbcSum, neg8_toNat, Bool.toNat_false]
      omega
    rw [hsum, neg8_toNat, overflowV_add_zero, Bool.toNat_false, Bool.false_and, Bool.xor_false]
    exact congrArg signedOverflow (Int.sub_zero _).symm
  | true =>
    rw [← isOwnNegative_neg y, sbcSum, neg8_toNat]
    exact overflowV_borrow x (-y)

/-- The three places of R77 in one formula: b = 0x80, which `Neg8` keeps, and a borrow where both bytes are 0x00 or 0x80. -/
theorem sbcVfInverted_eq (x y : Byte) (c : Bool) :
    sbcVfInverted x y c = (decide (y = 0x80#8) ^^ (c && (isOwnNegative x && isOwnNegative y))) := by
  by_cases h80 : y = 0x80#8
  · subst h80
    cases c <;> simp [sbcVfInverted, isOwnNegative]
  · simp [sbcVfInverted, isOwnNegative, h80, Bool.and_assoc, Bool.and_comm]

theorem overflowV_sbcSum_eq (x y : Byte) (c : Bool) :
    overflowV x.toNat (neg8 y.toNat) (sbcSum x y c) =
      (signedOverflow (x.toInt - y.toInt - c.toNat) ^^ sbcVfInverted x y c) := by
  rw [overflowV_sbcSum, signedOverflow_add_neg, sbcVfInverted_eq, Bool.xor_assoc]

theorem ofNat_sbcSum (x y : Byte) (c : Bool) :
    BitVec.ofNat 8 (sbcSum x y c) = BitVec.ofNat 8 ((x.toNat + 512 - y.toNat - c.toNat) % 256) := by
  rw [← sbcSum_mod]
  exact BitVec.eq_of_toNat_eq (by simp)

end Sys2Proof.Machine

namespace Sys2Proof.Proofs

open Sys2Proof.Machine Sys2Proof.Claims

/-- Settles O28: R75's four flags are the exact ones of `a + b + CF`, by `overflowV_add` for VF. -/
theorem adcAddsTheCarry : Obligations.AdcAddsTheCarry := by
  refine operandRule_of_withOperands _ Laws.RoundTrip.adc execAdc.eq_def fun a y u => ?_
  have hx := (u.reg a).isLt
  have hy := y.isLt
  have hc := u.flags.cf.toNat_le
  dsimp only
  rw [flags_eq_resultFlags, overflowV_add, carryOut_eq (by omega)]

/-- Settles O29: adding `Neg8(b)` is subtracting b, with the flags of `subFlags_eq`. -/
theorem subKeepsCarry : Obligations.SubKeepsCarry :=
  operandRule_of_withOperands _ Laws.RoundTrip.sub execSub.eq_def fun _ _ _ => by
    rw [subFlags_eq, ofNat_add_neg8]

/-- Settles O31. -/
theorem cmpWritesOnlyFlags : Obligations.CmpWritesOnlyFlags :=
  operandRule_of_withOperands _ Laws.RoundTrip.cmp execCmp.eq_def fun _ _ _ => by rw [subFlags_eq]

/-- Settles O30: CF by `not_carryOut_sbcSum`, VF by `overflowV_sbcSum_eq`, the result and its NF and ZF modulo 256. -/
theorem sbcSubtractsTheBorrow : Obligations.SbcSubtractsTheBorrow :=
  operandRule_of_withOperands _ Laws.RoundTrip.sbc execSbc_eq fun _ _ _ => by
    rw [flags_eq_resultFlags, not_carryOut_sbcSum, overflowV_sbcSum_eq, sbcSum_mod, ofNat_sbcSum]

/-- Settles O27: each value of ADD_VF_RULE takes the exact carry and signed overflow of `a + b`. -/
theorem addIgnoresAndKeepsCarry : Obligations.AddIgnoresAndKeepsCarry := by
  refine operandRule_of_withOperands _ Laws.RoundTrip.add execAdd.eq_def fun a y u => ?_
  have hx := (u.reg a).isLt
  have hy := y.isLt
  have hcarry := carryOut_eq (n := (u.reg a).toNat + y.toNat) (by omega)
  dsimp only
  rw [flags_eq_resultFlags]
  cases u.cfg.addVfRule <;> simp only [addVf, hcarry, overflowV_add_zero]

end Sys2Proof.Proofs
end

section
/-! The shifter (R83-R92). Each variant moves every bit of the byte one place and pushes one bit in, so two operations on
bytes, `pushDown` and `pushUp`, say what all eight do. A plain rotation is then a rotation of the 8-bit byte, and a rotation
through carry one of the 9-bit word `CF:x[A]`; as many single rotations as a word has bits give it back. -/

namespace Sys2Proof.Machine

open Sys2Proof.Claims

variable {f : Byte → Bool → ShiftOut} {i : Instr} {ins : Reg → Instr} {mode : Nat} {pushed : Byte → Bool → Bool}

/-! ## One place down, one place up -/

/-- Every bit one place lower, with `p` in bit 7. -/
def pushDown (p : Bool) (x : Byte) : Byte := (if p then 0x80#8 else 0x00#8) ||| (x >>> 1)

/-- Every bit one place higher, with `p` in bit 0. -/
def pushUp (p : Bool) (x : Byte) : Byte := (x <<< 1) ||| (if p then 0x01#8 else 0x00#8)

theorem getLsbD_pushDown_seven (p : Bool) (x : Byte) : (pushDown p x).getLsbD 7 = p := by
  cases p <;> simp [pushDown]

theorem getLsbD_pushDown_of_lt (p : Bool) (x : Byte) {n : Nat} (h : n < 7) :
    (pushDown p x).getLsbD n = x.getLsbD (n + 1) := by
  have h0 : (if p then 0x80#8 else 0x00#8).getLsbD n = false := by
    cases p <;> interval_cases n <;> rfl
  rw [pushDown, BitVec.getLsbD_or, h0, Bool.false_or, BitVec.getLsbD_ushiftRight, Nat.add_comm]

theorem getLsbD_pushUp_zero (p : Bool) (x : Byte) : (pushUp p x).getLsbD 0 = p := by
  cases p <;> simp [pushUp]

theorem getLsbD_pushUp_succ (p : Bool) (x : Byte) {n : Nat} (h : n < 7) :
    (pushUp p x).getLsbD (n + 1) = x.getLsbD n := by
  have h0 : (if p then 0x01#8 else 0x00#8).getLsbD (n + 1) = false := by
    cases p <;> interval_cases n <;> rfl
  rw [pushUp, BitVec.getLsbD_or, h0, Bool.or_false, BitVec.getLsbD_shiftLeft]
  simp [Nat.succ_lt_succ h]

/-! ## The variants whose pushed bit is not written as one (R84-R87) -/

/-- SRA keeps the sign in place, which pushes it in from above. -/
theorem variantSra_eq (x : Byte) (cf : Bool) :
    variantSra x cf = ⟨pushDown (x.getLsbD 7) x, x.getLsbD 0, false⟩ := by
  have hsign : x &&& 0x80#8 = if x.getLsbD 7 then 0x80#8 else 0x00#8 := BitVec.and_twoPow x 7
  rw [variantSra, hsign, BitVec.or_comm, pushDown]

theorem variantSrl_eq (x : Byte) (cf : Bool) : variantSrl x cf = ⟨pushDown false x, x.getLsbD 0, false⟩ := by
  simp [variantSrl, pushDown]

theorem pushUp_false (x : Byte) : pushUp false x = x <<< 1 := BitVec.or_zero

theorem variantSla_eq (x : Byte) (cf : Bool) :
    variantSla x cf = ⟨pushUp false x, x.getLsbD 7, x.getLsbD 7 ^^ (pushUp false x).getLsbD 7⟩ := by
  rw [pushUp_false, variantSla]

theorem variantSll_eq (x : Byte) (cf : Bool) : variantSll x cf = ⟨pushUp false x, x.getLsbD 7, false⟩ := by
  rw [pushUp_false, variantSll]

/-! ## The rules of the statements -/

/-- The flags of R83 are those of the result as a number. -/
theorem shiftFlags_eq_resultFlags (o : ShiftOut) : shiftFlags o = resultFlags o.c o.v o.r.toNat := by
  rw [shiftFlags, resultFlags, getLsbD7_eq]
  simp [← BitVec.toNat_inj]

theorem rightRule_of_shiftReg (hm : mode < 8)
    (hd : ∀ a, decodeOpcode (encodeSH (BitVec.ofNat 8 mode) a) = .ok (ins a))
    (he : ∀ a s, exec (ins a) s = shiftReg f a s)
    (hf : ∀ x cf, f x cf = ⟨pushDown (pushed x cf) x, x.getLsbD 0, false⟩) : RightRule mode ins pushed := by
  intro a s
  refine ⟨encodeSH_eq_ofNat hm a ▸ hd a, pushDown (pushed (s.reg a) s.flags.cf) (s.reg a),
    fun n hn => getLsbD_pushDown_of_lt _ _ hn, getLsbD_pushDown_seven _ _, ?_⟩
  rw [he, shiftReg_eq, hf, shiftFlags_eq_resultFlags]

theorem leftRule_of_shiftReg {arith : Bool} (hm : mode < 8)
    (hd : ∀ a, decodeOpcode (encodeSH (BitVec.ofNat 8 mode) a) = .ok (ins a))
    (he : ∀ a s, exec (ins a) s = shiftReg f a s)
    (hf : ∀ x cf, f x cf = ⟨pushUp (pushed x cf) x, x.getLsbD 7,
      arith && (x.getLsbD 7 ^^ (pushUp (pushed x cf) x).getLsbD 7)⟩) : LeftRule mode ins pushed arith := by
  have hne (p q : Bool) : (p ^^ q) = decide (p ≠ q) := by cases p <;> cases q <;> rfl
  intro a s
  refine ⟨encodeSH_eq_ofNat hm a ▸ hd a, pushUp (pushed (s.reg a) s.flags.cf) (s.reg a),
    fun n hn => getLsbD_pushUp_succ _ _ hn, getLsbD_pushUp_zero _ _, ?_⟩
  rw [he, shiftReg_eq, hf, shiftFlags_eq_resultFlags, hne]

/-! ## A word is back after as many single rotations as it has bits -/

variable {w : Nat} {x y : BitVec (w + 2)}

theorem getLsbD_rotateRight_one (x : BitVec (w + 2)) {n : Nat} (h : n < w + 2) :
    (x.rotateRight 1).getLsbD n = x.getLsbD ((n + 1) % (w + 2)) := by
  rw [BitVec.getLsbD_rotateRight, Nat.mod_eq_of_lt (by omega : 1 < w + 2)]
  obtain h | rfl : n < w + 1 ∨ n = w + 1 := by omega
  · simp [h, Nat.mod_eq_of_lt, Nat.add_comm]
  · simp

theorem getLsbD_iterate_rotateRight_one (x : BitVec (w + 2)) {n : Nat} (h : n < w + 2) (k : Nat) :
    ((·.rotateRight 1)^[k] x).getLsbD n = x.getLsbD ((n + k) % (w + 2)) := by
  induction k generalizing n with
  | zero => exact congrArg x.getLsbD (Nat.mod_eq_of_lt h).symm
  | succ k ih =>
    rw [Function.iterate_succ_apply', getLsbD_rotateRight_one _ h, ih (Nat.mod_lt _ (by omega)), Nat.mod_add_mod,
      Nat.add_assoc, Nat.add_comm 1]

theorem iterate_rotateRight_one (x : BitVec (w + 2)) : (·.rotateRight 1)^[w + 2] x = x :=
  BitVec.eq_of_getLsbD_eq fun n h => by
    rw [getLsbD_iterate_rotateRight_one x h, Nat.add_mod_right, Nat.mod_eq_of_lt h]

theorem eq_rotateRight_one (hlow : ∀ n, n < w + 1 → y.getLsbD n = x.getLsbD (n + 1))
    (htop : y.getLsbD (w + 1) = x.getLsbD 0) : y = x.rotateRight 1 := by
  refine BitVec.eq_of_getLsbD_eq fun n h => ?_
  rw [getLsbD_rotateRight_one x h]
  obtain h | rfl : n < w + 1 ∨ n = w + 1 := by omega
  · rw [Nat.mod_eq_of_lt (Nat.succ_lt_succ h), hlow n h]
  · rw [Nat.mod_self, htop]

theorem eq_rotateLeft_one (hhigh : ∀ n, n < w + 1 → y.getLsbD (n + 1) = x.getLsbD n)
    (hbot : y.getLsbD 0 = x.getLsbD (w + 1)) : y = x.rotateLeft 1 := by
  refine BitVec.eq_of_getLsbD_eq fun n h => ?_
  rw [BitVec.getLsbD_rotateLeft, Nat.mod_eq_of_lt (by omega : 1 < w + 2)]
  cases n with
  | zero => simpa using hbot
  | succ n => simpa [h] using hhigh n (by omega)

/-- Turning left undoes turning right, so the same count brings a word back. -/
theorem leftInverse_rotateLeft_one :
    Function.LeftInverse (fun x : BitVec (w + 2) => x.rotateLeft 1) (·.rotateRight 1) := by
  intro x
  refine (eq_rotateLeft_one (fun n h => ?_) ?_).symm
  · rw [getLsbD_rotateRight_one x (by omega), Nat.mod_eq_of_lt (Nat.succ_lt_succ h)]
  · rw [getLsbD_rotateRight_one x (by omega), Nat.mod_self]

theorem iterate_rotateLeft_one (x : BitVec (w + 2)) : (·.rotateLeft 1)^[w + 2] x = x := by
  have h := leftInverse_rotateLeft_one.iterate (w + 2) x
  rwa [iterate_rotateRight_one] at h

/-! ## The rotations of the model as rotations of a word (R88-R91) -/

theorem pushDown_getLsbD_zero (x : Byte) : pushDown (x.getLsbD 0) x = x.rotateRight 1 :=
  eq_rotateRight_one (fun _ h => getLsbD_pushDown_of_lt _ _ h) (getLsbD_pushDown_seven _ _)

theorem pushUp_getLsbD_seven (x : Byte) : pushUp (x.getLsbD 7) x = x.rotateLeft 1 :=
  eq_rotateLeft_one (fun _ h => getLsbD_pushUp_succ _ _ h) (getLsbD_pushUp_zero _ _)

theorem getLsbD_cons_eight (b : Bool) (x : Byte) : (BitVec.cons b x).getLsbD 8 = b := by
  rw [BitVec.getLsbD_cons, if_pos rfl]

theorem getLsbD_cons_of_lt (b : Bool) (x : Byte) {n : Nat} (h : n < 8) : (BitVec.cons b x).getLsbD n = x.getLsbD n := by
  rw [BitVec.getLsbD_cons, if_neg (Nat.ne_of_lt h)]

theorem cons_pushDown (cf : Bool) (x : Byte) :
    BitVec.cons (x.getLsbD 0) (pushDown cf x) = (BitVec.cons cf x).rotateRight 1 := by
  refine eq_rotateRight_one (fun n h => ?_) ?_
  · rw [getLsbD_cons_of_lt _ _ h]
    obtain h | rfl : n < 7 ∨ n = 7 := by omega
    · rw [getLsbD_cons_of_lt _ _ (Nat.succ_lt_succ h), getLsbD_pushDown_of_lt _ _ h]
    · rw [getLsbD_cons_eight, getLsbD_pushDown_seven]
  · rw [getLsbD_cons_eight, getLsbD_cons_of_lt _ _ (by decide)]

theorem cons_pushUp (cf : Bool) (x : Byte) :
    BitVec.cons (x.getLsbD 7) (pushUp cf x) = (BitVec.cons cf x).rotateLeft 1 := by
  refine eq_rotateLeft_one (fun n h => ?_) ?_
  · rw [getLsbD_cons_of_lt _ x h]
    obtain h | rfl : n < 7 ∨ n = 7 := by omega
    · rw [getLsbD_cons_of_lt _ _ (Nat.succ_lt_succ h), getLsbD_pushUp_succ _ _ h]
    · rw [getLsbD_cons_eight]
  · rw [getLsbD_cons_eight, getLsbD_cons_of_lt _ _ (by decide), getLsbD_pushUp_zero]

/-- CF above the byte: the word that the rotations through carry turn. -/
def carryWord (a : Reg) (s : State) : BitVec 9 := BitVec.cons s.flags.cf (s.reg a)

theorem carryWord_inj {a : Reg} {s t : State} :
    carryWord a t = carryWord a s ↔ t.reg a = s.reg a ∧ t.flags.cf = s.flags.cf := by
  constructor
  · intro h
    exact ⟨by simpa [carryWord] using congrArg (BitVec.setWidth 8) h, by simpa [carryWord] using congrArg BitVec.msb h⟩
  · rintro ⟨hreg, hcf⟩
    rw [carryWord, carryWord, hreg, hcf]

/-! ## An instruction executed over and over -/

/-- `i` always answers a next state, and acts on the part `g` of the state by `F`. -/
def ActsOn {α : Type} (i : Instr) (g : State → α) (F : α → α) : Prop :=
  ∀ s, ∃ t, exec i s = .next t ∧ g t = F (g s)

theorem ActsOn.repeatExec {α : Type} {g : State → α} {F : α → α} (h : ActsOn i g F) (n : Nat) (s : State) :
    ∃ t, repeatExec i n s = some t ∧ g t = F^[n] (g s) := by
  induction n generalizing s with
  | zero => exact ⟨s, rfl, rfl⟩
  | succ n ih =>
    obtain ⟨t, ht, hg⟩ := h s
    obtain ⟨u, hu, hgu⟩ := ih t
    refine ⟨u, ?_, hgu.trans (congrArg F^[n] hg)⟩
    rw [Claims.repeatExec, ht]
    exact hu

/-- A shift answers the state with the variant's result in its register and the bit moved out in CF. -/
theorem shiftReg_next (f : Byte → Bool → ShiftOut) (a : Reg) (s : State) :
    ∃ t, shiftReg f a s = .next t ∧ t.reg a = (f (s.reg a) s.flags.cf).r ∧ t.flags.cf = (f (s.reg a) s.flags.cf).c :=
  ⟨_, shiftReg_eq f a, State.reg_setReg_same .., congrArg Flags.cf (State.setReg_flags ..)⟩

theorem rrl_actsOn_reg (a : Reg) : ActsOn (.rrl a) (·.reg a) (·.rotateRight 1) := by
  intro s
  obtain ⟨t, ht, hreg, -⟩ := shiftReg_next variantRrl a s
  exact ⟨t, ht, hreg.trans (pushDown_getLsbD_zero _)⟩

theorem rll_actsOn_reg (a : Reg) : ActsOn (.rll a) (·.reg a) (·.rotateLeft 1) := by
  intro s
  obtain ⟨t, ht, hreg, -⟩ := shiftReg_next variantRll a s
  exact ⟨t, ht, hreg.trans (pushUp_getLsbD_seven _)⟩

theorem rra_actsOn_carryWord (a : Reg) : ActsOn (.rra a) (carryWord a) (·.rotateRight 1) := by
  intro s
  obtain ⟨t, ht, hreg, hcf⟩ := shiftReg_next variantRra a s
  refine ⟨t, ht, ?_⟩
  rw [carryWord, hreg, hcf]
  exact cons_pushDown _ _

theorem rla_actsOn_carryWord (a : Reg) : ActsOn (.rla a) (carryWord a) (·.rotateLeft 1) := by
  intro s
  obtain ⟨t, ht, hreg, hcf⟩ := shiftReg_next variantRla a s
  refine ⟨t, ht, ?_⟩
  rw [carryWord, hreg, hcf]
  exact cons_pushUp _ _

end Sys2Proof.Machine

namespace Sys2Proof.Proofs

open Sys2Proof.Machine Sys2Proof.Claims

/-- Settles O35: each right variant is `pushDown` of the bit its rule names. -/
theorem rightShiftsMoveEveryBitDownOne : Obligations.RightShiftsMoveEveryBitDownOne :=
  ⟨rightRule_of_shiftReg (by decide) Laws.RoundTrip.sra (fun _ _ => rfl) variantSra_eq,
    rightRule_of_shiftReg (by decide) Laws.RoundTrip.srl (fun _ _ => rfl) variantSrl_eq,
    rightRule_of_shiftReg (by decide) Laws.RoundTrip.rra (fun _ _ => rfl) fun _ _ => rfl,
    rightRule_of_shiftReg (by decide) Laws.RoundTrip.rrl (fun _ _ => rfl) fun _ _ => rfl⟩

/-- Settles O36: each left variant is `pushUp` of the bit its rule names. -/
theorem leftShiftsMoveEveryBitUpOne : Obligations.LeftShiftsMoveEveryBitUpOne :=
  ⟨leftRule_of_shiftReg (by decide) Laws.RoundTrip.sla (fun _ _ => rfl) variantSla_eq,
    leftRule_of_shiftReg (by decide) Laws.RoundTrip.sll (fun _ _ => rfl) variantSll_eq,
    leftRule_of_shiftReg (by decide) Laws.RoundTrip.rla (fun _ _ => rfl) fun _ _ => rfl,
    leftRule_of_shiftReg (by decide) Laws.RoundTrip.rll (fun _ _ => rfl) fun _ _ => rfl⟩

/-- Settles O37: the byte turns in 8 bits under RLL and RRL, and `CF:x[A]` in 9 bits under RRA and RLA. -/
theorem fullRotationsRestoreTheByte : Obligations.FullRotationsRestoreTheByte := by
  intro a s
  obtain ⟨t₁, hrll, hreg₁⟩ := (rll_actsOn_reg a).repeatExec 8 s
  obtain ⟨t₂, hrrl, hreg₂⟩ := (rrl_actsOn_reg a).repeatExec 8 s
  obtain ⟨t₃, hrra, hword₃⟩ := (rra_actsOn_carryWord a).repeatExec 9 s
  obtain ⟨t₄, hrla, hword₄⟩ := (rla_actsOn_carryWord a).repeatExec 9 s
  exact ⟨⟨t₁, hrll, hreg₁.trans (iterate_rotateLeft_one _)⟩,
    ⟨t₂, hrrl, hreg₂.trans (iterate_rotateRight_one _)⟩,
    ⟨t₃, hrra, carryWord_inj.mp (hword₃.trans (iterate_rotateRight_one _))⟩,
    ⟨t₄, hrla, carryWord_inj.mp (hword₄.trans (iterate_rotateLeft_one _))⟩⟩

end Sys2Proof.Proofs
end

section
/-! A branch that stands in the program bank and names its own address (R93, R103): its step leaves the state alone where the
condition holds, and goes past it where it does not. The two polling loops are such branches, on the ready bits. -/

namespace Sys2Proof.Machine

variable {s : State} {i : Instr} {cond : State → Bool}

/-- The step of a branch whose target can be fetched (R93): the target's index is `pc + 1` when the step begins. -/
theorem step_of_branch (hr : s.run = .running) (hp : s.pc < 511) (hd : decodeOpcode (s.mem.read s.pc) = .ok i)
    (hi : ∀ u, exec i u = branchIf (cond u) u) :
    step s = .next (s.setPc (if cond (s.setPc (s.pc + 1)) then (s.mem.read (s.pc + 1)).toNat else s.pc + 2)) := by
  rw [step_of_decode hr (by omega) hd, hi, branchIf_of_lt _ (show s.pc + 1 < 512 by omega)]
  rfl

section

variable (hr : s.run = .running) (hp : s.pc < 256) (hd : decodeOpcode (s.mem.read s.pc) = .ok i)
  (hi : ∀ u, exec i u = branchIf (cond u) u) (ht : s.mem.read (s.pc + 1) = BitVec.ofNat 8 s.pc)

include hr hp hd hi ht

/-- Only an address in the program bank fits the target byte, so only there does it name the branch itself. -/
theorem step_of_selfBranch :
    step s = .next (s.setPc (if cond (s.setPc (s.pc + 1)) then s.pc else s.pc + 2)) := by
  have htarget : (s.mem.read (s.pc + 1)).toNat = s.pc := by
    rw [ht, BitVec.toNat_ofNat, Nat.mod_eq_of_lt hp]
  rw [step_of_branch hr (by omega) hd hi, htarget]

theorem step_of_selfBranch_taken (hc : cond (s.setPc (s.pc + 1)) = true) : step s = .next s := by
  rw [step_of_selfBranch hr hp hd hi ht, if_pos hc, State.setPc_self]

theorem step_of_selfBranch_not_taken (hc : cond (s.setPc (s.pc + 1)) = false) :
    step s = .next (s.setPc (s.pc + 2)) := by
  rw [step_of_selfBranch hr hp hd hi ht, hc, if_neg Bool.false_ne_true]

end

/-- BBC 4 is taken while no input is pending (R94). -/
theorem exec_bbc4_eq (s : State) : exec .bbc4 s = branchIf (!s.ibuf.ready) s := rfl

/-- BBC 12 is taken while output is pending (R94). -/
theorem exec_bbc12_eq (s : State) : exec .bbc12 s = branchIf s.obuf.ready s := rfl

end Sys2Proof.Machine

namespace Sys2Proof.Proofs

open Sys2Proof.Machine Sys2Proof.Claims

/-- Settles O19: each poll is a self-branch, taken until the host's action turns its ready bit. The action leaves `run`, `pc`
and memory alone, so the step after it executes the same branch. -/
theorem pollingLoopsWaitForTheHost : Obligations.PollingLoopsWaitForTheHost := by
  constructor
  · intro s v hr hp hop ht hready
    have hd : decodeOpcode (s.mem.read s.pc) = .ok .bbc4 := hop ▸ Laws.RoundTrip.bbc4
    exact ⟨step_of_selfBranch_taken hr hp hd exec_bbc4_eq ht (by simp [hready]),
      step_of_selfBranch_not_taken (s := hostAct (.produce v) s) hr hp hd exec_bbc4_eq ht (by simp)⟩
  · intro s hr hp hop ht hready
    have hd : decodeOpcode (s.mem.read s.pc) = .ok .bbc12 := hop ▸ Laws.RoundTrip.bbc12
    exact ⟨step_of_selfBranch_taken hr hp hd exec_bbc12_eq ht (by simp [hready]),
      step_of_selfBranch_not_taken (s := hostAct .consume s) hr hp hd exec_bbc12_eq ht (by simp)⟩

end Sys2Proof.Proofs
end

section
/-! Control transfer by JAL and JR (R95, R96): the step of each from Running. A JAL with a JR at its target is assembled from
the two, for what JAL leaves in ACC is what JR takes. -/

namespace Sys2Proof.Machine

variable {s : State}

/-- A number and its residue modulo 256 are the same byte (R6). -/
theorem byteOfNat_mod (n : Nat) : BitVec.ofNat 8 (n % 256) = BitVec.ofNat 8 n :=
  BitVec.eq_of_toNat_eq (by simp)

/-- The step of a JAL that stands whole in the array (R95): its second word is the target, and the address after it goes to
ACC. -/
theorem step_of_jal (hr : s.run = .running) (hp : s.pc + 1 < 512) (hd : decodeOpcode (s.mem.read s.pc) = .ok .jal) :
    step s = .next ((s.setReg .acc (BitVec.ofNat 8 (s.pc + 2))).setPc (s.mem.read (s.pc + 1)).toNat) :=
  (step_of_decode hr (by omega) hd).trans (execJal_of_lt (s := s.setPc (s.pc + 1)) hp)

/-- The step of a JR (R96). -/
theorem step_of_jr (hr : s.run = .running) (hp : s.pc < 512) (hd : decodeOpcode (s.mem.read s.pc) = .ok .jr) :
    step s = .next (s.setPc s.acc.toNat) :=
  step_of_decode hr hp hd

end Sys2Proof.Machine

namespace Sys2Proof.Proofs

open Sys2Proof.Machine Sys2Proof.Claims

/-- Settles O39: the two ways JAL can end, by whether its target can be fetched. -/
theorem jalLinksThroughAcc : Obligations.JalLinksThroughAcc := by
  refine ⟨⟨Laws.RoundTrip.jal, rfl⟩, fun s => ⟨fun hp => ?_, fun hp => execJal_of_ge (Nat.not_lt.mpr hp)⟩⟩
  rw [byteOfNat_mod]
  exact execJal_of_lt hp

/-- Settles O40. -/
theorem jrJumpsToAcc : Obligations.JrJumpsToAcc :=
  ⟨⟨Laws.RoundTrip.jr, rfl⟩, fun s => ⟨s.acc.isLt, rfl⟩⟩

/-- Settles O41: JAL leaves the address after itself in ACC and memory as it was, so the JR at its target, an address below
256, takes it from there. -/
theorem jalThenJrReturns : Obligations.JalThenJrReturns := by
  intro s hr hp hjal hjr
  have hfirst := step_of_jal hr hp (hjal ▸ Laws.RoundTrip.jal)
  have htarget : (s.mem.read (s.pc + 1)).toNat < 512 := (BitVec.isLt _).trans (by decide)
  have hsecond := step_of_jr
    (s := (s.setReg .acc (BitVec.ofNat 8 (s.pc + 2))).setPc (s.mem.read (s.pc + 1)).toNat)
    hr htarget (hjr ▸ Laws.RoundTrip.jr)
  exact ⟨_, _, hfirst, hsecond, BitVec.toNat_ofNat _ 8, hr⟩

/-- Settles O44. -/
theorem rcfAndScfWriteOnlyCarry : Obligations.RcfAndScfWriteOnlyCarry :=
  ⟨fun _ hn => ⟨names_rcf hn, names_scf hn⟩, fun _ => ⟨rfl, rfl⟩⟩

end Sys2Proof.Proofs
end

section
/-! The run state after a step (R105, R113): one equation of `stepHalt` per way a step can go, what an instruction leaves as
the run state, and the port's answer, which is read off it. -/

namespace Sys2Proof.Machine

variable {s t : State} {i : Instr}

/-! ## The first cause of a halt -/

theorem stepHalt_of_ge (hp : ¬ s.pc < 512) : stepHalt s = some (.addressOutOfRange s.pc) := if_neg hp

theorem stepHalt_of_decode_error {e : DecodeError} (hp : s.pc < 512) (hd : decodeOpcode (s.mem.read s.pc) = .error e) :
    stepHalt s = some (.unknownInstruction (s.mem.read s.pc)) := by
  rw [stepHalt, if_pos hp, hd]

theorem stepHalt_of_decode (hp : s.pc < 512) (hd : decodeOpcode (s.mem.read s.pc) = .ok i) :
    stepHalt s = executeHalt i (s.setPc (s.pc + 1)) := by
  rw [stepHalt, if_pos hp, hd]

/-! ## The run state and the answer -/

/-- An instruction executed from Running halts with what `executeHalt` says, and otherwise leaves Running. -/
theorem exec_run (hr : s.run = .running) (h : exec i s = .next t) : t.run = RunState.ofHalt (executeHalt i s) := by
  obtain ⟨r, n, hx, rfl⟩ | ⟨rfl, rfl⟩ | hc := exec_next_cases h
  · rw [hx.halts]; rfl
  · rfl
  · rw [hc.noHalt, hc.run, hr]; rfl

/-- A step halts with the first cause that `stepHalt` meets, and otherwise leaves Running. -/
theorem step_run (h : step s = .next t) : t.run = RunState.ofHalt (stepHalt s) := by
  obtain ⟨hrun, ⟨hp, rfl⟩ | ⟨hp, ⟨e, he⟩, rfl⟩ | ⟨i, hp, hd, hexec⟩⟩ := step_cases h
  · rw [stepHalt_of_ge hp]; rfl
  · rw [stepHalt_of_decode_error hp he]; rfl
  · rw [stepHalt_of_decode hp hd]
    exact exec_run (s := s.setPc (s.pc + 1)) hrun hexec

/-- Every step from Running answers a next state (R106, D14): only Halted has no step. -/
theorem exists_step_of_running (hr : s.run = .running) : ∃ t, step s = .next t := by
  by_cases hp : s.pc < 512
  · cases hd : decodeOpcode (s.mem.read s.pc) with
    | error e => exact ⟨_, step_of_decode_error hr hp hd⟩
    | ok i =>
      rw [step_of_decode hr hp hd]
      exact Proofs.everyInstructionAnswersANextState i _
  · exact ⟨_, step_of_pc_ge hr hp⟩

/-- The step port answers Halt exactly for a state that has halted (R51, R105). -/
theorem State.answer_halts_iff {o : Option HaltReason} (h : t.run = RunState.ofHalt o) :
    t.answer = .halts ↔ o.isSome := by
  rw [State.answer, h]
  cases o with
  | none => simp [RunState.ofHalt]
  | some r => simp [RunState.ofHalt]

end Sys2Proof.Machine

namespace Sys2Proof.Proofs

open Sys2Proof.Machine Sys2Proof.Claims

/-- Settles O9: a step from Running answers a state, whose run state `step_run` gives and whose answer follows from it. -/
theorem stepHaltsOnTheFirstCauseOnly : Obligations.StepHaltsOnTheFirstCauseOnly := by
  intro s hr
  obtain ⟨t, ht⟩ := exists_step_of_running hr
  exact ⟨t, ht, step_run ht, State.answer_halts_iff (step_run ht)⟩

end Sys2Proof.Proofs
end

section
/-! Transfers of control (R93, R95, R96, R123): an instruction with a target is JR, or a two-byte instruction without an operand
B that takes its target from its second word. Hence it halts nowhere in the array, writes no memory, and names an address of
the program bank; what the step after it executes follows. -/

namespace Sys2Proof.Machine

variable {s t : State} {i : Instr} {n : Nat}

/-- What a target says of its instruction: JR takes it from ACC, JAL and a taken branch from the second word. -/
theorem transferTarget_cases (h : transferTarget i s = some n) :
    (i = .jr ∧ n = s.acc.toNat) ∨ (i.operand = none ∧ i.length = 2 ∧ n = (s.mem.read (s.pc + 1)).toNat) := by
  cases i with
  | jr => exact .inl ⟨rfl, (Option.some.inj h).symm⟩
  | jal => exact .inr ⟨rfl, rfl, (Option.some.inj h).symm⟩
  | bbc0 | bbc1 | bbc2 | bbc3 | bbc4 | bbc5 | bbc6 | bbc7
  | bbc8 | bbc9 | bbc10 | bbc11 | bbc12 | bbc13 | bbc14 | bbc15 =>
    obtain ⟨-, rfl⟩ : _ ∧ (s.mem.read (s.pc + 1)).toNat = n := by
      simpa only [transferTarget, Option.ite_none_right_eq_some, Option.some.injEq] using h
    exact .inr ⟨rfl, rfl, rfl⟩
  | _ => cases h

/-- A target is one byte, so it lies in the program bank (R36). -/
theorem transferTarget_lt (h : transferTarget i s = some n) : n < 256 := by
  obtain ⟨-, rfl⟩ | ⟨-, -, rfl⟩ := transferTarget_cases h <;> exact BitVec.isLt _

theorem operand_of_transfer (h : transferTarget i s = some n) : i.operand = none := by
  obtain ⟨rfl, -⟩ | ⟨hb, -⟩ := transferTarget_cases h
  · rfl
  · exact hb

theorem length_pos_of_transfer (h : transferTarget i s = some n) : 0 < i.length := by
  obtain ⟨rfl, -⟩ | ⟨-, hl, -⟩ := transferTarget_cases h
  · exact Nat.one_pos
  · omega

/-- A transfer that stands whole in the array does not halt: the only error it could meet is the fetch of its second word. -/
theorem executeHalt_of_transfer (h : transferTarget i s = some n) (hl : s.pc + i.length ≤ 512) :
    executeHalt i (s.setPc (s.pc + 1)) = none := by
  obtain ⟨rfl, -⟩ | ⟨hb, h2, -⟩ := transferTarget_cases h
  · rfl
  · exact (executeHalt_of_target hb h2 _).trans (if_pos (show s.pc + 1 < 512 by omega))

/-- A transfer stores nothing, so the bytes at its target are those that stood there before it. -/
theorem exec_mem_of_transfer {u : State} (h : transferTarget i s = some n) (hx : exec i u = .next t) : t.mem = u.mem :=
  exec_mem hx fun a b hi => by
    subst hi
    cases operand_of_transfer h

end Sys2Proof.Machine

namespace Sys2Proof.Proofs

open Sys2Proof.Machine Sys2Proof.Claims

/-- Settles O53: the transfer continues at its target with memory as it was, so the next step fetches and executes what stands
there. -/
theorem transfersHaveNoDelaySlot : Obligations.TransfersHaveNoDelaySlot := by
  intro s i n hr hl hd htarget
  have hpos := length_pos_of_transfer htarget
  have hlt := transferTarget_lt htarget
  have hp : s.pc < 512 := by omega
  obtain ⟨t, hstep⟩ := exists_step_of_running hr
  have hrun : t.run = .running := by
    rw [step_run hstep, stepHalt_of_decode hp hd, executeHalt_of_transfer htarget hl]
    rfl
  have hpc : t.pc = n := by
    rw [programCounterAfterAStep s t i hp hd hstep hrun, htarget]
    rfl
  have hmem : t.mem = s.mem :=
    exec_mem_of_transfer (u := s.setPc (s.pc + 1)) htarget ((step_of_decode hr hp hd).symm.trans hstep)
  refine ⟨hlt, t, hstep, hrun, hpc, fun j hj => ?_⟩
  rw [← hmem, ← hpc] at hj
  rw [step_of_decode hrun (by omega) hj, hpc]

end Sys2Proof.Proofs
end
